-- ==== Sys2Proof/Word.lean ====
section
/-! DEFINITION. The two word types of the block and the two counter widths (00_scope.md R8, R11). -/

namespace Sys2Proof

/-- One byte of a host access. -/
abbrev Byte := BitVec 8

/-- One 16-bit register slot, or one command word (10_state.md R16, 30_encoding.md R54). -/
abbrev Word := BitVec 16

/-- The two counter widths the quantizer accepts (00_scope.md R8): `w8` is W = 0, `w16` is W = 1
(30_encoding.md R56). -/
inductive Width where
  | w8
  | w16
  deriving DecidableEq, Repr

end Sys2Proof
end

