-- ==== Sys2Proof/Syntax.lean ====
section
/-! DEFINITION. The commands: one constructor per row of spec/opcode_table.json (30_encoding.md R57). -/

namespace Sys2Proof

/-- A command of the block, with the operands its word carries (30_encoding.md R55, R56).
A sample or a direction is a Bool: true is high / positive. `n` is the index INST; which indices a word can
carry is `wellFormed`. -/
inductive Instr where
  /-- NOP, 40_command_cycle.md R67. -/
  | nop
  /-- QUANT W, 41_quantizer.md R79. -/
  | quant (w : Width)
  /-- DBPOS RAW, INST, 42_debounce.md R95. -/
  | dbpos (raw : Bool) (n : Nat)
  /-- DBNEG RAW, INST, 42_debounce.md R96. -/
  | dbneg (raw : Bool) (n : Nat)
  /-- DBINIT INST, 42_debounce.md R97. -/
  | dbinit (n : Nat)
  /-- DBPEEK DIR, INST, 42_debounce.md R98. -/
  | dbpeek (d : Bool) (n : Nat)
  deriving DecidableEq, Repr

end Sys2Proof
end

