-- ==== Sys2Proof/WellFormed.lean ====
section
/-! DEFINITION. Which terms of Instr a command word can carry (30_encoding.md R56, R61: "The assembler refuses any
operand outside its range"). -/

namespace Sys2Proof

/-- The index fits the 8-bit field INST (R56: 0..255). An index of N_DB or more is well-formed: the command
decodes and reports BAD_INST when it executes. -/
def wellFormed : Instr → Bool
  | .nop => true
  | .quant _ => true
  | .dbpos _ n => decide (n < 256)
  | .dbneg _ n => decide (n < 256)
  | .dbinit n => decide (n < 256)
  | .dbpeek _ n => decide (n < 256)

end Sys2Proof
end

