-- ==== Sys2Proof/Decode.lean ====
section
/-! DEFINITION. The decoder of 30_encoding.md R58, total on all 65536 command words, rejecting by name; and the
encoder of R55 and R61. -/

namespace Sys2Proof

/-- `v[hi:lo]`, read as an unsigned number (00_scope.md R11). -/
def slice (v : Word) (hi lo : Nat) : Nat := v.toNat / 2 ^ lo % 2 ^ (hi + 1 - lo)

/-- `v[i]` (00_scope.md R11). -/
def bitAt (v : Word) (i : Nat) : Bool := slice v i i == 1

/-- Why a word is no command (30_encoding.md R59). Executing it raises ILLEGAL for either reason. -/
inductive Illegal where
  /-- OP is 0x6..0xF. -/
  | reservedOpcode
  /-- OP is 0x0..0x5 and a reserved bit of its format is 1. -/
  | reservedBits
  deriving DecidableEq, Repr

/-- What the decoder answers. -/
inductive Decoded where
  | instr (i : Instr)
  | illegal (why : Illegal)
  deriving DecidableEq, Repr

/-- The width that QUANT's bit W names (30_encoding.md R56). -/
def widthOfBit (b : Bool) : Width := if b then .w16 else .w8

/-- The bit W of a width. -/
def Width.bit : Width → Nat
  | .w8 => 0
  | .w16 => 1

/-- The decoder of 30_encoding.md R58. -/
def decode (v : Word) : Decoded :=
  match slice v 15 12 with
  | 0 => if slice v 11 0 = 0 then .instr .nop else .illegal .reservedBits
  | 1 => if slice v 11 1 = 0 then .instr (.quant (widthOfBit (bitAt v 0))) else .illegal .reservedBits
  | 2 => if slice v 11 9 = 0 then .instr (.dbpos (bitAt v 8) (slice v 7 0)) else .illegal .reservedBits
  | 3 => if slice v 11 9 = 0 then .instr (.dbneg (bitAt v 8) (slice v 7 0)) else .illegal .reservedBits
  | 4 => if slice v 11 8 = 0 then .instr (.dbinit (slice v 7 0)) else .illegal .reservedBits
  | 5 => if slice v 11 9 = 0 then .instr (.dbpeek (bitAt v 8) (slice v 7 0)) else .illegal .reservedBits
  | _ => .illegal .reservedOpcode

/-- The word of a well-formed command, as 30_encoding.md R61 writes it (the patterns are R55's). -/
def encode : Instr → Word
  | .nop => 0x0000#16
  | .quant w => BitVec.ofNat 16 (0x1000 + w.bit)
  | .dbpos r n => BitVec.ofNat 16 (0x2000 + 256 * r.toNat + n)
  | .dbneg r n => BitVec.ofNat 16 (0x3000 + 256 * r.toNat + n)
  | .dbinit n => BitVec.ofNat 16 (0x4000 + n)
  | .dbpeek d n => BitVec.ofNat 16 (0x5000 + 256 * d.toNat + n)

/-- The command in the low `nbits` bits of `w`, the bits above them 0; none where the decoder rejects. -/
def decodeTableWord (nbits w : Nat) : Option Instr :=
  match decode (BitVec.ofNat 16 (w % 2 ^ nbits)) with
  | .instr i => some i
  | .illegal _ => none

end Sys2Proof
end

