-- ==== Sys2Proof/Config.lean ====
section
/-! DEFINITION. What an implementation fixes (00_scope.md R6): the window's address, the clock table, the quanta
per microsecond and the number of debounce units; the configurations the spec names; and the free values of a
power-down without a reset (93_implementation_defined.md U7). -/

namespace Sys2Proof

/-- The implementation parameters (00_scope.md R6). NCLK is the length of `tick`. Which values are legal is
`Config.legal` (Machine/Ops.lean). -/
structure Config where
  /-- BASE: host byte address of the register window. -/
  base : Nat
  /-- TICK[0..NCLK-1], in quanta, finest first (R7). -/
  tick : List Nat
  /-- QPU: quanta per microsecond. -/
  qpu : Nat
  /-- N_DB: number of debounce units. -/
  nDb : Nat
  deriving DecidableEq, Repr

/-- NCLK, the number of clock sources (R6). -/
def Config.nclk (c : Config) : Nat := c.tick.length

/-- The reference configuration (R6, the column "Reference value"). -/
def Config.reference : Config :=
  { base := 0x7000, tick := [1, 2, 4, 8, 16, 128], qpu := 1, nDb := 2 }

/-- Configuration A of 95_test_vectors.md section 2.2, at the reference BASE. -/
def Config.vectorsA : Config := { base := 0x7000, tick := [2, 8, 32], qpu := 4, nDb := 2 }

/-- Configuration B of 95_test_vectors.md section 2.2, at the reference BASE. -/
def Config.vectorsB : Config := { base := 0x7000, tick := [3, 10], qpu := 1, nDb := 1 }

/-- The n-th free value: what a register or a debounce counter holds after a power-down that no reset follows
(93_implementation_defined.md U7, "any value"; log entry 6). It has no body: nothing can be proved about it. -/
opaque Config.freeWord : Nat → BitVec 16

end Sys2Proof
end

