-- ==== Sys2Proof/Machine/State.lean ====
section
/-! DEFINITION. The state of the block (10_state.md R15) with the configuration it is built for and the host's
stream of accesses; its reset values; the reasons a step can stop. -/

namespace Sys2Proof.Machine

/-- The sixteen register slots of the window, in offset order (10_state.md R16). -/
inductive Reg where
  | cmd | status | intvLo | intvHi | thresh | qsel | reload | ach0
  | ach1 | ach2 | errm0 | errm1 | dbcnt | dbflags | reserved | info
  deriving DecidableEq, Repr

/-- The access classes of 10_state.md R16. -/
inductive AccessClass where
  | rw
  | ro
  | cmd
  deriving DecidableEq, Repr

/-- The result codes of 60_exceptions.md R102. Values 6..15 do not exist (93 U14). -/
inductive Code where
  | ok | outOfRange | subTick | illegal | badInst | badThresh
  deriving DecidableEq, Repr

/-- One debounce unit of the file: CNT[n] and SET[n] (10_state.md R30). -/
structure Debounce where
  cnt : Word
  settled : Bool
  deriving DecidableEq, Repr

/-- What a host read returns (20_memory.md R41, R43). -/
inductive ReadData where
  | byte (b : Byte)
  | word (v : Word)
  deriving DecidableEq, Repr

/-- What the host does to the block, one event at a time (20_memory.md R38, R49; 70_reset_and_hazards.md R115;
60_exceptions.md R114). Addresses are host byte addresses. -/
inductive HostEvent where
  /-- MemRead(addr, 1). -/
  | readByte (addr : Nat)
  /-- MemRead(addr, 2). -/
  | readWord (addr : Nat)
  /-- MemWrite(addr, 1, b). -/
  | writeByte (addr : Nat) (b : Byte)
  /-- MemWrite(addr, 2, v). -/
  | writeWord (addr : Nat) (v : Word)
  /-- The host's reset, which resets the block (R115). -/
  | reset
  /-- A power-down and power-up that no reset follows (93_implementation_defined.md U7). -/
  | powerCycle
  deriving DecidableEq, Repr

/-- Nothing faults: the block has no trap, and every error is a code in STATUS (60_exceptions.md R105, R106).
So the type has no constructor, and no step can answer a fault. -/
inductive Fault where
  deriving DecidableEq, Repr

/-- Why the model gives an event no step. -/
inductive Refusal where
  /-- Raised by an arm of exec whose command has no meaning yet. Safe. No arm is one. -/
  | notModelled (mnemonic : String)
  /-- Raised by a word access at an odd offset (20_memory.md R40). Safe: the spec refuses it too. -/
  | misalignedWord
  /-- Raised by an access outside the window, which is not the block's concern (20_memory.md R38; log entry 4).
  Safe. -/
  | outsideWindow
  /-- Raised by a step of a machine whose configuration is outside the legal ranges (00_scope.md R6). Safe: the
  spec asks for it. -/
  | illegalConfiguration
  deriving DecidableEq, Repr

/-- The whole machine. The reserved slot and INFO are constants and need no storage (10_state.md R27, R28):
`State.getReg` answers them. -/
structure State where
  /-- The configuration, which no step changes (log entry 1). -/
  cfg : Config
  cmd : Word
  status : Word
  intvLo : Word
  intvHi : Word
  thresh : Word
  qsel : Word
  reload : Word
  ach0 : Word
  ach1 : Word
  ach2 : Word
  errm0 : Word
  errm1 : Word
  dbcnt : Word
  dbflags : Word
  /-- The debounce file, entry n being CNT[n] and SET[n] (10_state.md R30). -/
  units : List Debounce
  /-- The host's events still to be performed, oldest first (the model's own field, log entry 2). -/
  bus : List HostEvent
  /-- What the block last returned to a read (the model's own field, log entry 3). -/
  lastRead : Option ReadData
  /-- The index of the next free value (the model's own field, log entry 6). -/
  freeCount : Nat
  deriving DecidableEq, Repr

/-- The state after reset of a block built for `c` (70_reset_and_hazards.md R115, R116). -/
def State.resetWith (c : Config) : State :=
  { cfg := c
    cmd := 0, status := 0, intvLo := 0, intvHi := 0, thresh := 0, qsel := 0, reload := 0
    ach0 := 0, ach1 := 0, ach2 := 0, errm0 := 0, errm1 := 0, dbcnt := 0, dbflags := 0
    units := List.replicate c.nDb { cnt := 0, settled := false }
    bus := [], lastRead := none, freeCount := 0 }

/-- The state after reset, for the reference configuration (00_scope.md R6; log entry 1). -/
def State.reset : State := State.resetWith Config.reference

end Sys2Proof.Machine
end

