-- ==== Sys2Proof/Machine/Flags.lean ====
section
/-! DEFINITION. Every flag and field computation: the words of STATUS, QSEL, DBFLAGS and INFO built from their
fields, and their fields read back (10_state.md R18, R21, R26, R28; 60_exceptions.md R103). -/

namespace Sys2Proof.Machine

/-- The number of a result code (60_exceptions.md R102). -/
def Code.num : Code → Nat
  | .ok => 0
  | .outOfRange => 1
  | .subTick => 2
  | .illegal => 3
  | .badInst => 4
  | .badThresh => 5

/-- RANGE = 1 exactly for the two quantization failures (60_exceptions.md R103). -/
def Code.range : Code → Bool
  | .outOfRange => true
  | .subTick => true
  | .ok => false
  | .illegal => false
  | .badInst => false
  | .badThresh => false

/-- The STATUS word of a code: `zext_16({RANGE, CODE[3:0]})` (60_exceptions.md R103). -/
def statusWord (c : Code) : Word := 0#11 ++ BitVec.ofBool c.range ++ BitVec.ofNat 4 c.num

/-- STATUS.CODE (10_state.md R18). -/
def statusCode (v : Word) : Nat := slice v 3 0

/-- STATUS.RANGE (10_state.md R18). -/
def statusRange (v : Word) : Bool := bitAt v 4

/-- The QSEL word `{7'b0, OVER, 4'b0, k[3:0]}` (41_quantizer.md R79). -/
def qselWord (isOver : Bool) (k : Nat) : Word := 0#7 ++ BitVec.ofBool isOver ++ 0#4 ++ BitVec.ofNat 4 k

/-- QSEL.CLKSEL (10_state.md R21). -/
def qselClk (v : Word) : Nat := slice v 3 0

/-- QSEL.OVER (10_state.md R21). -/
def qselOver (v : Word) : Bool := bitAt v 8

/-- The DBFLAGS word `{n[7:0], 4'b0, d, lvl, s, evt}` (42_debounce.md R95). -/
def dbflagsWord (n : Nat) (d lvl settled evt : Bool) : Word :=
  BitVec.ofNat 8 n ++ 0#4 ++ BitVec.ofBool d ++ BitVec.ofBool lvl ++ BitVec.ofBool settled ++ BitVec.ofBool evt

/-- DBFLAGS.EVT (10_state.md R26). -/
def dbflagsEvt (v : Word) : Bool := bitAt v 0

/-- DBFLAGS.SET (10_state.md R26). -/
def dbflagsSet (v : Word) : Bool := bitAt v 1

/-- DBFLAGS.LVL (10_state.md R26). -/
def dbflagsLvl (v : Word) : Bool := bitAt v 2

/-- DBFLAGS.DIR (10_state.md R26). -/
def dbflagsDir (v : Word) : Bool := bitAt v 3

/-- DBFLAGS.INST (10_state.md R26). -/
def dbflagsInst (v : Word) : Nat := slice v 15 8

/-- The settled level for direction d: `SET ? d : (1 - d)` (42_debounce.md R92). -/
def settledLevel (d settled : Bool) : Bool := if settled then d else !d

/-- The INFO constant `{VERSION = 0, NCLK - 1, N_DB - 1}` (10_state.md R28, R29). -/
def infoWord (c : Config) : Word := 0#4 ++ BitVec.ofNat 4 (c.nclk - 1) ++ BitVec.ofNat 8 (c.nDb - 1)

end Sys2Proof.Machine
end

