-- ==== Sys2Proof/Machine/Ops.lean ====
section
/-! DEFINITION. The named operations over configuration, registers, the debounce file and the window, and the
one way an error is reported (`raise`, 00_scope.md R12, 60_exceptions.md R103). -/

namespace Sys2Proof

/-- Strictly increasing (00_scope.md R7: finest first, no equal periods). -/
def strictlyIncreasing : List Nat → Bool
  | [] => true
  | [_] => true
  | a :: b :: rest => decide (a < b) && strictlyIncreasing (b :: rest)

/-- The legal ranges of 00_scope.md R6 and the order of R7. -/
def Config.legal (c : Config) : Bool :=
  decide (c.base % 32 = 0) &&
  decide (1 ≤ c.nclk) && decide (c.nclk ≤ 16) &&
  c.tick.all (fun t => decide (1 ≤ t) && decide (t ≤ 2 ^ 32 - 1)) && strictlyIncreasing c.tick &&
  decide (1 ≤ c.qpu) && decide (c.qpu ≤ 65536) &&
  decide (1 ≤ c.nDb) && decide (c.nDb ≤ 256)

/-- The offset of a host address in the window, none outside it (20_memory.md R38: BASE ≤ addr < BASE+0x20). -/
def Config.locate (c : Config) (addr : Nat) : Option Nat :=
  if c.base ≤ addr ∧ addr < c.base + 0x20 then some (addr - c.base) else none

namespace Machine

/-- The offset of a register (10_state.md R16). -/
def Reg.offset : Reg → Nat
  | .cmd => 0x00
  | .status => 0x02
  | .intvLo => 0x04
  | .intvHi => 0x06
  | .thresh => 0x08
  | .qsel => 0x0A
  | .reload => 0x0C
  | .ach0 => 0x0E
  | .ach1 => 0x10
  | .ach2 => 0x12
  | .errm0 => 0x14
  | .errm1 => 0x16
  | .dbcnt => 0x18
  | .dbflags => 0x1A
  | .reserved => 0x1C
  | .info => 0x1E

/-- The access class of a register (10_state.md R16). -/
def Reg.access : Reg → AccessClass
  | .cmd => .cmd
  | .intvLo => .rw
  | .intvHi => .rw
  | .thresh => .rw
  | .status => .ro
  | .qsel => .ro
  | .reload => .ro
  | .ach0 => .ro
  | .ach1 => .ro
  | .ach2 => .ro
  | .errm0 => .ro
  | .errm1 => .ro
  | .dbcnt => .ro
  | .dbflags => .ro
  | .reserved => .ro
  | .info => .ro

/-- The register in the slot of a window offset: the slot at `o - (o mod 2)` (10_state.md R16, 20_memory.md R43).
Offsets of 0x20 and above are never asked for (`Config.locate`). -/
def Reg.ofOffset (o : Nat) : Reg :=
  match o / 2 with
  | 0 => .cmd
  | 1 => .status
  | 2 => .intvLo
  | 3 => .intvHi
  | 4 => .thresh
  | 5 => .qsel
  | 6 => .reload
  | 7 => .ach0
  | 8 => .ach1
  | 9 => .ach2
  | 10 => .errm0
  | 11 => .errm1
  | 12 => .dbcnt
  | 13 => .dbflags
  | 14 => .reserved
  | _ => .info

/-- `R[NAME]` (00_scope.md R12). The reserved slot reads 0x0000 and INFO its constant (10_state.md R27, R28). -/
def State.getReg (s : State) : Reg → Word
  | .cmd => s.cmd
  | .status => s.status
  | .intvLo => s.intvLo
  | .intvHi => s.intvHi
  | .thresh => s.thresh
  | .qsel => s.qsel
  | .reload => s.reload
  | .ach0 => s.ach0
  | .ach1 => s.ach1
  | .ach2 => s.ach2
  | .errm0 => s.errm0
  | .errm1 => s.errm1
  | .dbcnt => s.dbcnt
  | .dbflags => s.dbflags
  | .reserved => 0x0000#16
  | .info => infoWord s.cfg

/-- `R[NAME] <- v` (00_scope.md R12). The two constants cannot be written. -/
def State.setReg (s : State) (r : Reg) (v : Word) : State :=
  match r with
  | .cmd => { s with cmd := v }
  | .status => { s with status := v }
  | .intvLo => { s with intvLo := v }
  | .intvHi => { s with intvHi := v }
  | .thresh => { s with thresh := v }
  | .qsel => { s with qsel := v }
  | .reload => { s with reload := v }
  | .ach0 => { s with ach0 := v }
  | .ach1 => { s with ach1 := v }
  | .ach2 => { s with ach2 := v }
  | .errm0 => { s with errm0 := v }
  | .errm1 => { s with errm1 := v }
  | .dbcnt => { s with dbcnt := v }
  | .dbflags => { s with dbflags := v }
  | .reserved => s
  | .info => s

/-- `CNT[n]` (10_state.md R30). -/
def State.cnt (s : State) (n : Nat) : Word := (s.units.getD n { cnt := 0, settled := false }).cnt

/-- `SET[n]` (10_state.md R30). -/
def State.settled (s : State) (n : Nat) : Bool := (s.units.getD n { cnt := 0, settled := false }).settled

/-- `CNT[n] <- c; SET[n] <- f`. No other unit changes (10_state.md R30). -/
def State.setUnit (s : State) (n : Nat) (c : Word) (f : Bool) : State :=
  { s with units := s.units.set n { cnt := c, settled := f } }

/-- TAKING AN EXCEPTION, the whole of it (60_exceptions.md R103, R106; 00_scope.md R12): STATUS takes the code and
nothing else changes. No state is saved, no mode changes, there is no handler and no return from it (R107). -/
def raise (c : Code) (s : State) : State := s.setReg .status (statusWord c)

/-- The end of a command that succeeds: `R[STATUS] <- 0x0000` (60_exceptions.md R103). -/
def complete (s : State) : State := s.setReg .status (statusWord .ok)

/-- Bits 7:0 of a register, the byte at its even offset (20_memory.md R39). -/
def lowByte (v : Word) : Byte := v.extractLsb' 0 8

/-- Bits 15:8 of a register, the byte at its odd offset (20_memory.md R39). -/
def highByte (v : Word) : Byte := v.extractLsb' 8 8

/-- MemRead(BASE+o, 2), o even (20_memory.md R41). -/
def State.windowWord (s : State) (o : Nat) : Word := s.getReg (Reg.ofOffset o)

/-- MemRead(BASE+o, 1): byte `o mod 2` of the register's current value (20_memory.md R39, R43). -/
def State.windowByte (s : State) (o : Nat) : Byte :=
  if o % 2 = 0 then lowByte (s.getReg (Reg.ofOffset o)) else highByte (s.getReg (Reg.ofOffset o))

/-- A register with the byte at parity `o mod 2` replaced (20_memory.md R44). -/
def withByte (o : Nat) (b : Byte) (v : Word) : Word :=
  if o % 2 = 0 then highByte v ++ b else b ++ lowByte v

/-- The storing part of MemWrite(BASE+o, 2, v): an RW register takes v, an RO register and the reserved slot ignore
it (20_memory.md R42). CMD is `issue`'s (Machine/HostAccess.lean). -/
def State.storeWord (s : State) (o : Nat) (v : Word) : State :=
  match (Reg.ofOffset o).access with
  | .rw => s.setReg (Reg.ofOffset o) v
  | .ro => s
  | .cmd => s

/-- MemWrite(BASE+o, 1, b): an RW register takes the byte; CMD, an RO register and the reserved slot ignore it, and
nothing executes (20_memory.md R44). -/
def State.storeByte (s : State) (o : Nat) (b : Byte) : State :=
  match (Reg.ofOffset o).access with
  | .rw => s.setReg (Reg.ofOffset o) (withByte o b (s.getReg (Reg.ofOffset o)))
  | .ro => s
  | .cmd => s

end Machine

end Sys2Proof
end

