-- ==== Sys2Proof/Machine/Operands.lean ====
section
/-! DEFINITION. Every operand form: the width W, the multi-word groups INTV, ACH and ERRM, the threshold, and the
rounding of 00_scope.md R13. -/

namespace Sys2Proof

/-- w in bits: 8 if W = 0, 16 if W = 1 (30_encoding.md R56). -/
def Width.bits : Width → Nat
  | .w8 => 8
  | .w16 => 16

/-- MAXCNT(w) = 2^w - 1 (00_scope.md R8). -/
def Width.maxCount (w : Width) : Nat := 2 ^ w.bits - 1

/-- The value of a two-word group `{hi, lo}` (00_scope.md R14). -/
def words2 (hi lo : Word) : Nat := 2 ^ 16 * hi.toNat + lo.toNat

/-- The value of a three-word group `{hi, mid, lo}` (00_scope.md R14). -/
def words3 (hi mid lo : Word) : Nat := 2 ^ 32 * hi.toNat + 2 ^ 16 * mid.toNat + lo.toNat

/-- Bits 16·i+15 down to 16·i of a value (41_quantizer.md R79: `best.a[31:16]` is word 1). -/
def wordOf (i x : Nat) : Word := BitVec.ofNat 16 (x / 2 ^ (16 * i))

/-- `round_half_up(a, b) = (2·a + b) // (2·b)` (00_scope.md R13). -/
def roundHalfUp (a b : Nat) : Nat := (2 * a + b) / (2 * b)

/-- `|x - y|` on unbounded integers (00_scope.md R11). -/
def absDiff (x y : Nat) : Nat := if y ≤ x then x - y else y - x

namespace Machine

/-- INTV = {R[INTV_HI], R[INTV_LO]}, the requested interval in microseconds (10_state.md R19). -/
def State.intv (s : State) : Nat := words2 s.intvHi s.intvLo

/-- ACH = {R[ACH2], R[ACH1], R[ACH0]}, in quanta (10_state.md R23). -/
def State.ach (s : State) : Nat := words3 s.ach2 s.ach1 s.ach0

/-- ERRM = {R[ERRM1], R[ERRM0]}, in quanta (10_state.md R24). -/
def State.errm (s : State) : Nat := words2 s.errm1 s.errm0

/-- T = zext_16(R[THRESH]) (30_encoding.md R56). -/
def State.threshold (s : State) : Nat := s.thresh.toNat

end Machine

end Sys2Proof
end

