-- ==== Sys2Proof/Machine/DebounceUnit.lean ====
section
/-! DEFINITION. The debounce unit: the poll of 42_debounce.md R86 to R94 and the four commands of R95 to R98. -/

namespace Sys2Proof.Machine

/-- CNT[n], SET[n] and EVT after a poll. -/
structure Polled where
  cnt : Nat
  settled : Bool
  evt : Bool
  deriving DecidableEq, Repr

/-- One sample against one unit (42_debounce.md R88 to R92): a matching sample counts up to T and holds from there
on, with an event when the count becomes T; a contrary sample clears. -/
def pollUnit (d raw : Bool) (t c : Nat) (settled : Bool) : Polled :=
  if raw = d then
    if c < t then
      let evt := decide (c + 1 = t)
      { cnt := c + 1, settled := settled || evt, evt := evt }
    else { cnt := c, settled := settled, evt := false }
  else { cnt := 0, settled := false, evt := false }

/-- `R[DBCNT]` and `R[DBFLAGS]` for unit n, direction d, from its counter, its flag and the event
(42_debounce.md R95, R98). -/
def report (n : Nat) (d : Bool) (c : Word) (settled evt : Bool) (s : State) : State :=
  { s with dbcnt := c, dbflags := dbflagsWord n d (settledLevel d settled) settled evt }

/-- POLL(d, RAW, n) of 42_debounce.md R95: the instance check, then the threshold check (60_exceptions.md R104), then
the poll. -/
def poll (d raw : Bool) (n : Nat) (s : State) : State :=
  if s.cfg.nDb ≤ n then raise .badInst s
  else if s.threshold = 0 then raise .badThresh s
  else
    let p := pollUnit d raw s.threshold (s.cnt n).toNat (s.settled n)
    let c := BitVec.ofNat 16 p.cnt
    complete (report n d c p.settled p.evt (s.setUnit n c p.settled))

/-- DBPOS RAW, INST: POLL(1, RAW, INST) (42_debounce.md R95). -/
def execDbpos (raw : Bool) (n : Nat) (s : State) : Host.Outcome State Fault Refusal := .next (poll true raw n s)

/-- DBNEG RAW, INST: POLL(0, RAW, INST) (42_debounce.md R96). -/
def execDbneg (raw : Bool) (n : Nat) (s : State) : Host.Outcome State Fault Refusal := .next (poll false raw n s)

/-- DBINIT INST (42_debounce.md R97). DBCNT and DBFLAGS are not written. -/
def execDbinit (n : Nat) (s : State) : Host.Outcome State Fault Refusal :=
  if s.cfg.nDb ≤ n then .next (raise .badInst s)
  else .next (complete (s.setUnit n 0x0000#16 false))

/-- DBPEEK DIR, INST (42_debounce.md R98): EVT is 0 and the unit is not changed. -/
def execDbpeek (d : Bool) (n : Nat) (s : State) : Host.Outcome State Fault Refusal :=
  if s.cfg.nDb ≤ n then .next (raise .badInst s)
  else .next (complete (report n d (s.cnt n) (s.settled n) false s))

end Sys2Proof.Machine
end

