-- ==== Sys2Proof/Machine/Quantizer.lean ====
section
/-! DEFINITION. The quantizer unit: the pure function of 41_quantizer.md R72 to R78 and the command QUANT (R79). -/

namespace Sys2Proof.Machine

/-- A valid candidate: clock index, count, achieved interval, error magnitude, direction (41_quantizer.md R76). -/
structure Cand where
  k : Nat
  c : Nat
  a : Nat
  e : Nat
  isOver : Bool
  deriving DecidableEq, Repr

/-- The candidate of clock k with period t, if it is eligible (R73) and valid (R75), with its count (R74) and its
interval, error and direction (R76). -/
def candidate (iq maxCnt k t : Nat) : Option Cand :=
  if t ≤ iq then
    let c := roundHalfUp iq t
    if 1 ≤ c ∧ c ≤ maxCnt then
      some { k := k, c := c, a := c * t, e := absDiff iq (c * t), isOver := decide (iq < c * t) }
    else none
  else none

/-- The better of the best so far and a later candidate: strictly less error wins, so an earlier clock keeps a tie
(R77, R79 "strict <: earlier k wins ties"). -/
def better (best : Option Cand) (x : Cand) : Option Cand :=
  match best with
  | none => some x
  | some b => if x.e < b.e then some x else some b

/-- The loop of R79 over the clocks from index k on. -/
def selectFrom (iq maxCnt : Nat) : Nat → List Nat → Option Cand → Option Cand
  | _, [], best => best
  | k, t :: ts, best =>
    match candidate iq maxCnt k t with
    | none => selectFrom iq maxCnt (k + 1) ts best
    | some x => selectFrom iq maxCnt (k + 1) ts (better best x)

/-- What the pure function answers (R2): a result, or the code of a failure. -/
inductive QuantAnswer where
  | found (b : Cand)
  | failed (c : Code)
  deriving DecidableEq, Repr

/-- The quantizer's pure function of a request (interval i in microseconds, width w) and the constant configuration
(00_scope.md R2; 41_quantizer.md R72, R77, R78). -/
def quantize (c : Config) (i : Nat) (w : Width) : QuantAnswer :=
  let iq := i * c.qpu
  if iq < c.tick.headD 0 then .failed .subTick
  else
    match selectFrom iq w.maxCount 0 c.tick none with
    | none => .failed .outOfRange
    | some b => .found b

/-- The result registers of a successful QUANT (R79). -/
def writeQuant (b : Cand) (s : State) : State :=
  { s with
    qsel := qselWord b.isOver b.k
    reload := wordOf 0 b.c
    ach0 := wordOf 0 b.a
    ach1 := wordOf 1 b.a
    ach2 := wordOf 2 b.a
    errm0 := wordOf 0 b.e
    errm1 := wordOf 1 b.e }

/-- QUANT W (41_quantizer.md R79): the interval is INTV as it stands (40_command_cycle.md R64). -/
def execQuant (w : Width) (s : State) : Host.Outcome State Fault Refusal :=
  match quantize s.cfg s.intv w with
  | .failed c => .next (raise c s)
  | .found b => .next (complete (writeQuant b s))

end Sys2Proof.Machine
end

