-- ==== Sys2Proof/Machine/System.lean ====
section
/-! DEFINITION. NOP and the outcome of an illegal word (40_command_cycle.md R67, R68). -/

namespace Sys2Proof.Machine

/-- NOP: `R[STATUS] <- 0x0000` and nothing else (40_command_cycle.md R67). -/
def execNop (s : State) : Host.Outcome State Fault Refusal := .next (complete s)

/-- ILLEGAL: `raise ILLEGAL` (40_command_cycle.md R68). It is the outcome of a word that is no command, so it is no
arm of exec: the command cycle calls it. -/
def execIllegal (s : State) : Host.Outcome State Fault Refusal := .next (raise .illegal s)

end Sys2Proof.Machine
end

