-- ==== Sys2Proof/Machine/Dispatch.lean ====
section
/-! DEFINITION. The meaning of every command: one arm per constructor of Instr (40_command_cycle.md R63 step 3). -/

namespace Sys2Proof.Machine

def exec (i : Instr) (s : State) : Host.Outcome State Fault Refusal :=
  match i with
  | .nop => Sys2Proof.Machine.execNop s
  | .quant w => Sys2Proof.Machine.execQuant w s
  | .dbpos raw n => Sys2Proof.Machine.execDbpos raw n s
  | .dbneg raw n => Sys2Proof.Machine.execDbneg raw n s
  | .dbinit n => Sys2Proof.Machine.execDbinit n s
  | .dbpeek d n => Sys2Proof.Machine.execDbpeek d n s

end Sys2Proof.Machine
end

