-- ==== Sys2Proof/Machine/HostAccess.lean ====
section
/-! DEFINITION. What each event of the host does: reads and writes of the window (20_memory.md R38 to R44), the
command cycle that a word write to CMD starts (40_command_cycle.md R63), reset (70_reset_and_hazards.md R115) and a
power-down without reset (60_exceptions.md R114, 93_implementation_defined.md U7). -/

namespace Sys2Proof.Machine

/-- The command cycle of a word write of v to CMD, one indivisible step (40_command_cycle.md R63):
`R[CMD] <- v`, decode, execute. -/
def issue (v : Word) (s : State) : Host.Outcome State Fault Refusal :=
  match decode v with
  | .instr i => exec i (s.setReg .cmd v)
  | .illegal _ => execIllegal (s.setReg .cmd v)

/-- MemRead(addr, 1) (20_memory.md R43). -/
def hostReadByte (addr : Nat) (s : State) : Host.Outcome State Fault Refusal :=
  match s.cfg.locate addr with
  | none => .refused .outsideWindow
  | some o => .next { s with lastRead := some (.byte (s.windowByte o)) }

/-- MemRead(addr, 2) (20_memory.md R40, R41). -/
def hostReadWord (addr : Nat) (s : State) : Host.Outcome State Fault Refusal :=
  match s.cfg.locate addr with
  | none => .refused .outsideWindow
  | some o =>
    if o % 2 = 0 then .next { s with lastRead := some (.word (s.windowWord o)) }
    else .refused .misalignedWord

/-- MemWrite(addr, 1, b) (20_memory.md R44). -/
def hostWriteByte (addr : Nat) (b : Byte) (s : State) : Host.Outcome State Fault Refusal :=
  match s.cfg.locate addr with
  | none => .refused .outsideWindow
  | some o => .next (s.storeByte o b)

/-- MemWrite(addr, 2, v) (20_memory.md R40, R42): a write to CMD issues the command that v encodes. -/
def hostWriteWord (addr : Nat) (v : Word) (s : State) : Host.Outcome State Fault Refusal :=
  match s.cfg.locate addr with
  | none => .refused .outsideWindow
  | some o =>
    if o % 2 = 0 then
      if (Reg.ofOffset o).access = .cmd then issue v s else .next (s.storeWord o v)
    else .refused .misalignedWord

/-- Reset: every register and every debounce unit at its reset value (70_reset_and_hazards.md R115, R116). The
configuration is a constant. The host's later events still stand, and free values already used are not used again
(log entry 7). -/
def hostReset (s : State) : State :=
  { State.resetWith s.cfg with bus := s.bus, freeCount := s.freeCount }

/-- A STATUS word of the six that exist, chosen by a free value (93_implementation_defined.md U7, U14; log entry 6). -/
def freeStatus (v : Word) : Word :=
  match v.toNat % 6 with
  | 0 => statusWord .ok
  | 1 => statusWord .outOfRange
  | 2 => statusWord .subTick
  | 3 => statusWord .illegal
  | 4 => statusWord .badInst
  | _ => statusWord .badThresh

/-- k debounce units whose counters and flags are the free values from index i on, two for each unit. -/
def freeUnits : Nat → Nat → List Debounce
  | _, 0 => []
  | i, k + 1 =>
    { cnt := Config.freeWord i, settled := bitAt (Config.freeWord (i + 1)) 0 } :: freeUnits (i + 2) k

/-- A power-down and power-up that no reset follows: every register and every debounce unit takes a free value
(93_implementation_defined.md U7), the stuck fields staying as they are stuck (U12, U14; log entry 6). -/
def hostPowerCycle (s : State) : State :=
  let f := fun i => Config.freeWord (s.freeCount + i)
  { s with
    cmd := f 0
    status := freeStatus (f 1)
    intvLo := f 2
    intvHi := f 3
    thresh := f 4
    qsel := f 5 &&& 0x010F#16
    reload := f 6
    ach0 := f 7
    ach1 := f 8
    ach2 := f 9
    errm0 := f 10
    errm1 := f 11
    dbcnt := f 12
    dbflags := f 13 &&& 0xFF0F#16
    units := freeUnits (s.freeCount + 14) s.cfg.nDb
    lastRead := none
    freeCount := s.freeCount + 14 + 2 * s.cfg.nDb }

/-- What one event does to a state from whose stream it has been taken. -/
def perform (e : HostEvent) (s : State) : Host.Outcome State Fault Refusal :=
  match e with
  | .readByte a => hostReadByte a s
  | .readWord a => hostReadWord a s
  | .writeByte a b => hostWriteByte a b s
  | .writeWord a v => hostWriteWord a v s
  | .reset => .next (hostReset s)
  | .powerCycle => .next (hostPowerCycle s)

end Sys2Proof.Machine
end

