-- ==== Sys2Proof/Machine/Step.lean ====
section
/-! DEFINITION. One step: the host's oldest pending event, performed to completion (20_memory.md R49). -/

namespace Sys2Proof.Machine

/-- One step. A configuration outside the legal ranges is rejected (00_scope.md R6). With no event pending the block
does nothing (70_reset_and_hazards.md R117; log entry 2). -/
def step (s : State) : Host.Outcome State Fault Refusal :=
  if s.cfg.legal then
    match s.bus with
    | [] => .next s
    | e :: rest => perform e { s with bus := rest }
  else .refused .illegalConfiguration

/-- `s` with a word write of the low `nbits` bits of `w` to CMD as the host's next event: this block fetches nothing,
and a command runs when the host writes it to CMD (10_state.md R34, 20_memory.md R52; log entry 2). -/
def State.withFetchWord (s : State) (nbits w : Nat) : State :=
  { s with bus := .writeWord s.cfg.base (BitVec.ofNat 16 (w % 2 ^ nbits)) :: s.bus }

end Sys2Proof.Machine
end

