-- ==== Sys2Proof/Machine/HostProgram.lean ====
section
/-! DEFINITION. Host programs in the spec's notation as streams of host events: the statements of 30_encoding.md R61,
the pseudo-instructions of R62, and a host's 32-bit transfers (20_memory.md R38). Control flow is the host's and
stays outside (R61). -/

namespace Sys2Proof.Machine

/-- A statement of 30_encoding.md R61 that reaches the block, or a pseudo-instruction of R62. -/
inductive HostStmt where
  /-- `wr REG, imm16` -/
  | wr (r : Reg) (v : Word)
  /-- `wrb REG.lo, imm8` -/
  | wrbLo (r : Reg) (b : Byte)
  /-- `wrb REG.hi, imm8` -/
  | wrbHi (r : Reg) (b : Byte)
  /-- `rd REG -> x` -/
  | rd (r : Reg)
  /-- `issue …` -/
  | issue (i : Instr)
  /-- `quantize.w8 imm32` and `quantize.w16 imm32` -/
  | quantize (w : Width) (i : BitVec 32)
  /-- `pollpos n, r, T` -/
  | pollpos (n : Nat) (r : Bool) (t : Word)
  /-- `pollneg n, r, T` -/
  | pollneg (n : Nat) (r : Bool) (t : Word)
  /-- `rdach -> a` -/
  | rdach
  /-- `rderrm -> e` -/
  | rderrm
  deriving DecidableEq, Repr

/-- `MemWrite(BASE + offset(REG), 2, v)` (R61). -/
def wrEvent (c : Config) (r : Reg) (v : Word) : HostEvent := .writeWord (c.base + r.offset) v

/-- `MemRead(BASE + offset(REG), 2)` (R61). -/
def rdEvent (c : Config) (r : Reg) : HostEvent := .readWord (c.base + r.offset)

/-- `issue` of a command: `wr CMD` of its word, none for an operand outside its range (R61). -/
def issueEvents (c : Config) (i : Instr) : Option (List HostEvent) :=
  if wellFormed i then some [wrEvent c .cmd (encode i)] else none

/-- The accesses of a statement, in order; none where the assembler refuses an operand (R61, R62). -/
def HostStmt.events (c : Config) : HostStmt → Option (List HostEvent)
  | .wr r v => some [wrEvent c r v]
  | .wrbLo r b => some [.writeByte (c.base + r.offset) b]
  | .wrbHi r b => some [.writeByte (c.base + r.offset + 1) b]
  | .rd r => some [rdEvent c r]
  | .issue i => issueEvents c i
  | .quantize w i =>
    (issueEvents c (.quant w)).map
      (fun es => wrEvent c .intvLo (i.extractLsb' 0 16) :: wrEvent c .intvHi (i.extractLsb' 16 16) :: es)
  | .pollpos n r t => (issueEvents c (.dbpos r n)).map (fun es => wrEvent c .thresh t :: es)
  | .pollneg n r t => (issueEvents c (.dbneg r n)).map (fun es => wrEvent c .thresh t :: es)
  | .rdach => some [rdEvent c .ach0, rdEvent c .ach1, rdEvent c .ach2]
  | .rderrm => some [rdEvent c .errm0, rdEvent c .errm1]

/-- The accesses of a program; none where one statement is refused. -/
def assemble (c : Config) : List HostStmt → Option (List HostEvent)
  | [] => some []
  | st :: rest =>
    match st.events c, assemble c rest with
    | some es, some more => some (es ++ more)
    | _, _ => none

/-- A 32-bit host write, as the block sees it: two word writes in ascending address order, the least significant word
at the lower address (20_memory.md R38, 00_scope.md R14). -/
def write32Events (addr : Nat) (v : BitVec 32) : List HostEvent :=
  [.writeWord addr (v.extractLsb' 0 16), .writeWord (addr + 2) (v.extractLsb' 16 16)]

/-- A 32-bit host read, as the block sees it (20_memory.md R38). -/
def read32Events (addr : Nat) : List HostEvent := [.readWord addr, .readWord (addr + 2)]

end Sys2Proof.Machine
end

