-- ==== Sys2Proof/Safety.lean ====
section
/-! DEFINITION. What counts as a safe machine and a safe run, in the terms the claims use: the invariants of the state
and the accesses the block answers. -/

namespace Sys2Proof.Machine

/-- The six STATUS words that exist (60_exceptions.md R103). -/
abbrev StatusLegal (v : Word) : Prop :=
  v = 0x0000#16 ∨ v = 0x0011#16 ∨ v = 0x0012#16 ∨ v = 0x0003#16 ∨ v = 0x0004#16 ∨ v = 0x0005#16

/-- The invariant every step keeps: a legal configuration (00_scope.md R6), one debounce unit for each index below N_DB
(10_state.md R30), a STATUS word that exists (R18), and the reserved fields of QSEL and DBFLAGS at 0 (R21, R26). -/
abbrev State.Inv (s : State) : Prop :=
  s.cfg.legal = true ∧ s.units.length = s.cfg.nDb ∧ StatusLegal s.status ∧
  s.qsel &&& 0xFEF0#16 = 0#16 ∧ s.dbflags &&& 0x00F0#16 = 0#16

/-- The QU result registers describe one quantization (10_state.md R21, R23, R24): a clock that exists, its tick times
RELOAD as the achieved interval, and an error of at most half the tick. It holds at reset, where all are 0. -/
abbrev State.QuantCoherent (s : State) : Prop :=
  qselClk s.qsel < s.cfg.nclk ∧
  s.ach = s.reload.toNat * s.cfg.tick.getD (qselClk s.qsel) 0 ∧
  s.errm ≤ s.cfg.tick.getD (qselClk s.qsel) 0 / 2

/-- A settled unit has counted at least one sample (42_debounce.md R91, R92). -/
abbrev State.SettledHaveCounted (s : State) : Prop :=
  ∀ u ∈ s.units, u.settled = true → u.cnt ≠ 0#16

/-- An event the block answers: an access inside the window, a word access at an even offset (20_memory.md R38, R40),
or a reset or power cycle. -/
def answered (c : Config) : HostEvent → Bool
  | .readByte a => (c.locate a).isSome
  | .writeByte a _ => (c.locate a).isSome
  | .readWord a => (c.locate a).any (fun o => o % 2 == 0)
  | .writeWord a _ => (c.locate a).any (fun o => o % 2 == 0)
  | .reset => true
  | .powerCycle => true

/-- Every pending event is one the block answers. -/
abbrev State.BusAnswered (s : State) : Prop := s.bus.all (answered s.cfg) = true

/-! The spec's own terms for the quantizer and the poll, written from its rules and not from the machine, so that a
claim can compare the two. -/

/-- `TICK[k]` (00_scope.md R6). -/
abbrev tickOf (c : Config) (k : Nat) : Nat := c.tick.getD k 0

/-- `count_k` for a request of iq quanta (41_quantizer.md R74). -/
abbrev countOf (c : Config) (iq k : Nat) : Nat := (2 * iq + tickOf c k) / (2 * tickOf c k)

/-- `ach_k` (41_quantizer.md R76). -/
abbrev intervalOf (c : Config) (iq k : Nat) : Nat := countOf c iq k * tickOf c k

/-- `err_k = |Iq - ach_k|` (41_quantizer.md R76). -/
abbrev errorOf (c : Config) (iq k : Nat) : Nat := (iq - intervalOf c iq k) + (intervalOf c iq k - iq)

/-- `Iq`, the request in quanta (41_quantizer.md R72; 00_scope.md R14). -/
abbrev requestOf (s : State) : Nat := (65536 * s.intvHi.toNat + s.intvLo.toNat) * s.cfg.qpu

/-- Clock k is a clock, eligible (R73) and valid (R75) for iq quanta and counts up to m. -/
abbrev ValidClock (c : Config) (iq m k : Nat) : Prop :=
  k < c.nclk ∧ tickOf c k ≤ iq ∧ 1 ≤ countOf c iq k ∧ countOf c iq k ≤ m

/-- Clock k is the selected one: valid, of least error, and the first such (41_quantizer.md R77). -/
abbrev SelectedClock (c : Config) (iq m k : Nat) : Prop :=
  ValidClock c iq m k ∧
  ∀ j, ValidClock c iq m j → errorOf c iq k ≤ errorOf c iq j ∧ (j < k → errorOf c iq k < errorOf c iq j)

/-- The poll of direction d (42_debounce.md R88). -/
abbrev pollCmd (d raw : Bool) (n : Nat) : Instr := if d then .dbpos raw n else .dbneg raw n

/-- The word write that issues v (40_command_cycle.md R63). -/
abbrev cmdWrite (c : Config) (v : Word) : HostEvent := .writeWord c.base v

/-- The unit a command names, if it names one (42_debounce.md R86). -/
def namedUnit : Instr → Option Nat
  | .nop => none
  | .quant _ => none
  | .dbpos _ n => some n
  | .dbneg _ n => some n
  | .dbinit n => some n
  | .dbpeek _ n => some n

/-- From s to t nothing is written but the registers listed and the unit named: every other register, every byte of
the window outside those registers, every other unit, the configuration, the pending events and the rest stay. -/
abbrev WritesOnly (regs : List Reg) (unit : Option Nat) (s t : State) : Prop :=
  (∀ r, r ∉ regs → t.getReg r = s.getReg r) ∧
  (∀ o, o < 32 → (∀ r ∈ regs, o ≠ r.offset ∧ o ≠ r.offset + 1) → t.windowByte o = s.windowByte o) ∧
  (∀ m, unit ≠ some m → t.cnt m = s.cnt m ∧ t.settled m = s.settled m) ∧
  t.units.length = s.units.length ∧ t.cfg = s.cfg ∧ t.bus = s.bus ∧ t.lastRead = s.lastRead ∧
  t.freeCount = s.freeCount

/-- The state after a poll that leaves unit n with counter c and flag f: DBCNT, DBFLAGS = 256·n + flags, STATUS and the unit
are written, and nothing else (42_debounce.md R95). -/
abbrev afterPoll (s : State) (n c : Nat) (f : Bool) (flags : Nat) : State :=
  { s with
    units := s.units.set n { cnt := BitVec.ofNat 16 c, settled := f }
    dbcnt := BitVec.ofNat 16 c
    dbflags := BitVec.ofNat 16 (256 * n + flags)
    status := 0x0000#16 }

/-- The rule of the poll of direction d, `levelBit` being 4·LVL for a flag (42_debounce.md R92, R95): its refusals, its
effect on a matching sample below and from the threshold on, and its effect on a contrary sample. -/
abbrev PollRule (d : Bool) (dirBit : Nat) (levelBit : Bool → Nat) : Prop :=
  ∀ (s : State) (raw : Bool) (n : Nat), s.cfg.legal = true → s.units.length = s.cfg.nDb →
    (s.cfg.nDb ≤ n → exec (pollCmd d raw n) s = .next { s with status := 0x0004#16 }) ∧
    (n < s.cfg.nDb → s.thresh = 0x0000#16 → exec (pollCmd d raw n) s = .next { s with status := 0x0005#16 }) ∧
    (n < s.cfg.nDb → s.thresh ≠ 0x0000#16 → raw = d → (s.cnt n).toNat + 1 < s.thresh.toNat →
      exec (pollCmd d raw n) s = .next (afterPoll s n ((s.cnt n).toNat + 1) (s.settled n)
        (dirBit + levelBit (s.settled n) + 2 * (s.settled n).toNat))) ∧
    (n < s.cfg.nDb → s.thresh ≠ 0x0000#16 → raw = d → (s.cnt n).toNat + 1 = s.thresh.toNat →
      exec (pollCmd d raw n) s = .next (afterPoll s n s.thresh.toNat true (dirBit + levelBit true + 2 + 1))) ∧
    (n < s.cfg.nDb → s.thresh ≠ 0x0000#16 → raw = d → s.thresh.toNat ≤ (s.cnt n).toNat →
      exec (pollCmd d raw n) s = .next (afterPoll s n (s.cnt n).toNat (s.settled n)
        (dirBit + levelBit (s.settled n) + 2 * (s.settled n).toNat))) ∧
    (n < s.cfg.nDb → s.thresh ≠ 0x0000#16 → raw ≠ d →
      exec (pollCmd d raw n) s = .next (afterPoll s n 0 false (dirBit + levelBit false)))

end Sys2Proof.Machine
end

