-- ==== Sys2Proof/Certificates/Slice0/Obligations.lean ====
section
/-! DEFINITION. The statements for the provers, from the numbered rules of spec/. -/

open Sys2Proof Sys2Proof.Machine

/-! ## Encoding -/

/-- Decoding the word of any well-formed command gives the command back, operands included (30_encoding.md sections 1
to 3). -/
def Obligations.DecodeOfEncodeIsIdentity : Prop :=
  ∀ i : Instr, wellFormed i = true → decode (encode i) = .instr i

/-- A word that decodes to a command is that command's word, and the command is well-formed: each command has one
word (30_encoding.md sections 1 to 3). -/
def Obligations.EncodeOfDecodeIsIdentity : Prop :=
  ∀ (v : Word) (i : Instr), decode v = .instr i → wellFormed i = true ∧ encode i = v

/-- 30_encoding.md R58: a word decodes to the row of the opcode table whose mask and match it meets, with the row's
fields; a word that meets no row decodes to no command; and 1795 words are commands. -/
def Obligations.DecoderFollowsOpcodeTable : Prop :=
  (∀ v : Word,
    (v &&& 0xFFFF#16 = 0x0000#16 → decode v = .instr .nop) ∧
    (v &&& 0xFFFE#16 = 0x1000#16 → decode v = .instr (.quant (if v.getLsbD 0 then .w16 else .w8))) ∧
    (v &&& 0xFE00#16 = 0x2000#16 → decode v = .instr (.dbpos (v.getLsbD 8) (v.toNat % 256))) ∧
    (v &&& 0xFE00#16 = 0x3000#16 → decode v = .instr (.dbneg (v.getLsbD 8) (v.toNat % 256))) ∧
    (v &&& 0xFF00#16 = 0x4000#16 → decode v = .instr (.dbinit (v.toNat % 256))) ∧
    (v &&& 0xFE00#16 = 0x5000#16 → decode v = .instr (.dbpeek (v.getLsbD 8) (v.toNat % 256))) ∧
    (v &&& 0xFFFF#16 ≠ 0x0000#16 → v &&& 0xFFFE#16 ≠ 0x1000#16 → v &&& 0xFE00#16 ≠ 0x2000#16 →
      v &&& 0xFE00#16 ≠ 0x3000#16 → v &&& 0xFF00#16 ≠ 0x4000#16 → v &&& 0xFE00#16 ≠ 0x5000#16 →
      ∃ why, decode v = .illegal why)) ∧
  (List.range 65536).countP (fun x => (decodeTableWord 16 x).isSome) = 1795

/-- Words of 30_encoding.md R61 and 95_test_vectors.md decode to the commands they stand for (sanity). -/
def Obligations.SpecCommandWordsDecode : Prop :=
  decode 0x0000#16 = .instr .nop ∧ decode 0x1000#16 = .instr (.quant .w8) ∧
  decode 0x1001#16 = .instr (.quant .w16) ∧ decode 0x2100#16 = .instr (.dbpos true 0) ∧
  decode 0x30FF#16 = .instr (.dbneg false 255) ∧ decode 0x4002#16 = .instr (.dbinit 2) ∧
  decode 0x5102#16 = .instr (.dbpeek true 2) ∧ decode 0x1002#16 = .illegal .reservedBits ∧
  decode 0xF123#16 = .illegal .reservedOpcode

/-! ## The command cycle -/

/-- 40_command_cycle.md R63: a word write of v to CMD stores v, decodes it and executes the command, or raises ILLEGAL
where v is none, in one step that ends before the host's next event. -/
def Obligations.StepRunsDecodedCommand : Prop :=
  ∀ (s : State) (v : Word) (rest : List HostEvent), s.cfg.legal = true → s.bus = cmdWrite s.cfg v :: rest →
    (∀ i, decode v = .instr i → step s = exec i { s with bus := rest, cmd := v }) ∧
    (∀ why, decode v = .illegal why → step s = .next { s with bus := rest, cmd := v, status := 0x0003#16 })

/-- 40_command_cycle.md R68, 30_encoding.md R59: a word with a reserved opcode, or with a reserved bit of its format
set, changes CMD and STATUS and nothing else. -/
def Obligations.IllegalWordOnlyReports : Prop :=
  ∀ (s : State) (v : Word) (rest : List HostEvent), s.cfg.legal = true → s.bus = cmdWrite s.cfg v :: rest →
    (6 ≤ v.toNat / 4096 ∨
     (v.toNat / 4096 = 0 ∧ v.toNat % 4096 ≠ 0) ∨
     (v.toNat / 4096 = 1 ∧ v.toNat % 4096 / 2 ≠ 0) ∨
     (v.toNat / 4096 = 2 ∧ v.toNat % 4096 / 512 ≠ 0) ∨
     (v.toNat / 4096 = 3 ∧ v.toNat % 4096 / 512 ≠ 0) ∨
     (v.toNat / 4096 = 4 ∧ v.toNat % 4096 / 256 ≠ 0) ∨
     (v.toNat / 4096 = 5 ∧ v.toNat % 4096 / 512 ≠ 0)) →
    step s = .next { s with bus := rest, cmd := v, status := 0x0003#16 }

/-- 40_command_cycle.md R67: NOP sets STATUS to 0x0000 and writes nothing else; its word is 0x0000, and every other word
with OP = 0 is illegal. -/
def Obligations.NopOnlyClearsStatus : Prop :=
  (∀ s : State, exec .nop s = .next { s with status := 0x0000#16 }) ∧
  decode 0x0000#16 = .instr .nop ∧
  (∀ v : Word, v.toNat < 4096 → v ≠ 0x0000#16 → ∃ why, decode v = .illegal why)

/-- 40_command_cycle.md R66: a command that fails changes CMD and STATUS and nothing else. -/
def Obligations.FailedCommandChangesOnlyCmdAndStatus : Prop :=
  ∀ (s t : State) (v : Word) (rest : List HostEvent), s.cfg.legal = true → s.bus = cmdWrite s.cfg v :: rest →
    step s = .next t → t.status ≠ 0x0000#16 → t = { s with bus := rest, cmd := v, status := t.status }

/-- 60_exceptions.md R103: every command leaves one of the six STATUS words, RANGE being 1 exactly for the codes 1 and 2
and the bits above RANGE being 0; and STATUS is not sticky: the outcome does not depend on the STATUS before. -/
def Obligations.CommandReportsOneOfSixStatusWords : Prop :=
  ∀ (s t : State) (v : Word) (rest : List HostEvent), s.cfg.legal = true → s.bus = cmdWrite s.cfg v :: rest →
    step s = .next t →
    (t.status = 0x0000#16 ∨ t.status = 0x0011#16 ∨ t.status = 0x0012#16 ∨ t.status = 0x0003#16 ∨
      t.status = 0x0004#16 ∨ t.status = 0x0005#16) ∧
    (t.status.getLsbD 4 = true ↔ t.status.toNat % 16 = 1 ∨ t.status.toNat % 16 = 2) ∧
    t.status.toNat / 32 = 0 ∧
    ∀ old : Word, step { s with status := old } = .next t

/-- 60_exceptions.md R104: a command reports the first check that fails: decode, then instance, then threshold; for
QUANT, SUBTICK and then OUT_OF_RANGE. -/
def Obligations.ChecksRunInOrder : Prop :=
  ∀ (s : State) (v : Word) (rest : List HostEvent), s.cfg.legal = true → s.bus = cmdWrite s.cfg v :: rest →
    ∃ t, step s = .next t ∧
      ((∃ why, decode v = .illegal why) → t.status = 0x0003#16) ∧
      (∀ i n, decode v = .instr i → namedUnit i = some n → s.cfg.nDb ≤ n → t.status = 0x0004#16) ∧
      (∀ d raw n, decode v = .instr (pollCmd d raw n) → n < s.cfg.nDb → s.thresh = 0x0000#16 →
        t.status = 0x0005#16) ∧
      (∀ d raw n, decode v = .instr (pollCmd d raw n) → n < s.cfg.nDb → s.thresh ≠ 0x0000#16 →
        t.status = 0x0000#16) ∧
      (∀ n, decode v = .instr (.dbinit n) → n < s.cfg.nDb → t.status = 0x0000#16) ∧
      (∀ d n, decode v = .instr (.dbpeek d n) → n < s.cfg.nDb → t.status = 0x0000#16) ∧
      (∀ w, decode v = .instr (.quant w) → requestOf s < tickOf s.cfg 0 → t.status = 0x0012#16) ∧
      (∀ w, decode v = .instr (.quant w) → tickOf s.cfg 0 ≤ requestOf s →
        (¬ ∃ k, ValidClock s.cfg (requestOf s) (2 ^ w.bits - 1) k) → t.status = 0x0011#16)

/-- 40_command_cycle.md R65: what each command may write, and that it writes nothing else (registers, bytes of the
window, units). CMD is written by the cycle that runs the command. -/
def Obligations.CommandsWriteOnlyTheirOwnState : Prop :=
  ∀ (s t : State) (v : Word) (rest : List HostEvent), s.cfg.legal = true → s.bus = cmdWrite s.cfg v :: rest →
    step s = .next t →
    t.cmd = v ∧
    (∀ w, decode v = .instr (.quant w) →
      WritesOnly [.cmd, .qsel, .reload, .ach0, .ach1, .ach2, .errm0, .errm1, .status] none
        { s with bus := rest } t) ∧
    (∀ d raw n, decode v = .instr (pollCmd d raw n) →
      WritesOnly [.cmd, .dbcnt, .dbflags, .status] (some n) { s with bus := rest } t) ∧
    (∀ d n, decode v = .instr (.dbpeek d n) →
      WritesOnly [.cmd, .dbcnt, .dbflags, .status] (some n) { s with bus := rest } t) ∧
    (∀ n, decode v = .instr (.dbinit n) → WritesOnly [.cmd, .status] (some n) { s with bus := rest } t) ∧
    (decode v = .instr .nop → WritesOnly [.cmd, .status] none { s with bus := rest } t) ∧
    (∀ why, decode v = .illegal why → WritesOnly [.cmd, .status] none { s with bus := rest } t)

/-- 20_memory.md R46, its commands: NOP, QUANT, DBPEEK and DBINIT repeated give the same state; a DBPOS and a DBNEG exist
that do not. -/
def Obligations.OnlyPollsAreNotIdempotent : Prop :=
  (∀ (i : Instr) (s t : State), (∀ d raw n, i ≠ pollCmd d raw n) → exec i s = .next t → exec i t = .next t) ∧
  (∀ d : Bool, ∃ (s t : State) (raw : Bool) (n : Nat), exec (pollCmd d raw n) s = .next t ∧
    exec (pollCmd d raw n) t ≠ .next t)

/-! ## The quantizer -/

/-- 00_scope.md R13: the rounding is `(2·a + b) // (2·b)`; it is a nearest integer to a/b; and an exact half rounds up. -/
def Obligations.RoundHalfUpIsNearest : Prop :=
  ∀ a b : Nat, 0 < b →
    roundHalfUp a b = (2 * a + b) / (2 * b) ∧
    (∀ m : Int, ((a : Int) - (roundHalfUp a b : Int) * b).natAbs ≤ ((a : Int) - m * b).natAbs) ∧
    (∀ m : Nat, 2 * a = (2 * m + 1) * b → roundHalfUp a b = m + 1)

/-- 41_quantizer.md R80: an eligible clock never counts zero. -/
def Obligations.EligibleClockCountsAtLeastOne : Prop :=
  ∀ (c : Config) (iq k : Nat), c.legal = true → k < c.nclk → tickOf c k ≤ iq →
    1 ≤ roundHalfUp iq (tickOf c k)

/-- 41_quantizer.md R77 with the registers of R79: where clock k is the valid one of least error, the first of those, QUANT
completes with that clock, its count, its interval, its error and the error's direction, and writes nothing else. -/
def Obligations.QuantWritesSelectedClock : Prop :=
  ∀ (w : Width) (s : State) (k : Nat), s.cfg.legal = true →
    SelectedClock s.cfg (requestOf s) (2 ^ w.bits - 1) k →
    exec (.quant w) s = .next { s with
      qsel := BitVec.ofNat 16 (256 * (if requestOf s < intervalOf s.cfg (requestOf s) k then 1 else 0) + k)
      reload := BitVec.ofNat 16 (countOf s.cfg (requestOf s) k)
      ach0 := BitVec.ofNat 16 (intervalOf s.cfg (requestOf s) k)
      ach1 := BitVec.ofNat 16 (intervalOf s.cfg (requestOf s) k / 65536)
      ach2 := BitVec.ofNat 16 (intervalOf s.cfg (requestOf s) k / 65536 / 65536)
      errm0 := BitVec.ofNat 16 (errorOf s.cfg (requestOf s) k)
      errm1 := BitVec.ofNat 16 (errorOf s.cfg (requestOf s) k / 65536)
      status := 0x0000#16 }

/-- 41_quantizer.md R78: SUBTICK below the first tick, which is the case for an interval of 0; otherwise OUT_OF_RANGE where
no clock is valid; RANGE is 1 in both, and nothing but STATUS changes. -/
def Obligations.QuantFailureCodes : Prop :=
  ∀ (w : Width) (s : State), s.cfg.legal = true →
    (requestOf s < tickOf s.cfg 0 →
      exec (.quant w) s = .next { s with status := 0x0012#16 } ∧ statusRange 0x0012#16 = true) ∧
    (s.intvHi = 0x0000#16 → s.intvLo = 0x0000#16 → exec (.quant w) s = .next { s with status := 0x0012#16 }) ∧
    (tickOf s.cfg 0 ≤ requestOf s → (¬ ∃ k, ValidClock s.cfg (requestOf s) (2 ^ w.bits - 1) k) →
      exec (.quant w) s = .next { s with status := 0x0011#16 } ∧ statusRange 0x0011#16 = true)

/-- QUANT succeeds exactly when some clock is eligible and valid (41_quantizer.md section 1). -/
def Obligations.QuantSucceedsIffSomeClockIsValid : Prop :=
  ∀ (w : Width) (s : State), s.cfg.legal = true →
    ((∃ t, exec (.quant w) s = .next t ∧ t.status = 0x0000#16) ↔
      ∃ k, ValidClock s.cfg (requestOf s) (2 ^ w.bits - 1) k)

/-- 41_quantizer.md R81: on success ERRM is at most half the tick of the selected clock. -/
def Obligations.QuantErrorIsAtMostHalfTick : Prop :=
  ∀ (w : Width) (s t : State), s.cfg.legal = true → exec (.quant w) s = .next t → t.status = 0x0000#16 →
    65536 * t.errm1.toNat + t.errm0.toNat ≤ tickOf s.cfg (t.qsel.toNat % 16) / 2

/-- On success the result registers agree with each other and with the request (10_state.md R21 to R24, section 3): a clock
that exists, a count within the width, ACH = RELOAD × TICK[CLKSEL], ERRM = |INTV × QPU - ACH|, OVER = 1 exactly when ACH is
the greater. -/
def Obligations.QuantResultRegistersAgree : Prop :=
  ∀ (w : Width) (s t : State), s.cfg.legal = true → exec (.quant w) s = .next t → t.status = 0x0000#16 →
    t.qsel.toNat % 16 < s.cfg.nclk ∧
    1 ≤ t.reload.toNat ∧ t.reload.toNat ≤ 2 ^ w.bits - 1 ∧
    2 ^ 32 * t.ach2.toNat + 2 ^ 16 * t.ach1.toNat + t.ach0.toNat =
      t.reload.toNat * tickOf s.cfg (t.qsel.toNat % 16) ∧
    ((requestOf s : Int) - (t.reload.toNat * tickOf s.cfg (t.qsel.toNat % 16) : Nat)).natAbs =
      65536 * t.errm1.toNat + t.errm0.toNat ∧
    (t.qsel.getLsbD 8 = true ↔ requestOf s < t.reload.toNat * tickOf s.cfg (t.qsel.toNat % 16)) ∧
    t.qsel &&& 0xFEF0#16 = 0x0000#16

/-- 41_quantizer.md R82: a request that some clock k divides exactly within the width succeeds with error 0, and the selected
clock is the smallest index with an exact valid count. -/
def Obligations.QuantSucceedsOnExactRequests : Prop :=
  ∀ (w : Width) (s : State) (c k : Nat), s.cfg.legal = true → k < s.cfg.nclk → 1 ≤ c → c ≤ 2 ^ w.bits - 1 →
    requestOf s = c * tickOf s.cfg k →
    ∃ t, exec (.quant w) s = .next t ∧ t.status = 0x0000#16 ∧ t.errm0 = 0x0000#16 ∧ t.errm1 = 0x0000#16 ∧
      (∃ c', 1 ≤ c' ∧ c' ≤ 2 ^ w.bits - 1 ∧ requestOf s = c' * tickOf s.cfg (t.qsel.toNat % 16)) ∧
      t.qsel.toNat % 16 < s.cfg.nclk ∧
      (∀ j c', j < t.qsel.toNat % 16 → 1 ≤ c' → c' ≤ 2 ^ w.bits - 1 → requestOf s ≠ c' * tickOf s.cfg j)

/-- 41_quantizer.md R83: counts do not increase with k; and, from the first tick on, QUANT fails with OUT_OF_RANGE exactly when
the slowest eligible clock counts too far. -/
def Obligations.SlowestEligibleClockDecidesOutOfRange : Prop :=
  (∀ (c : Config) (iq j k : Nat), c.legal = true → j ≤ k → k < c.nclk → countOf c iq k ≤ countOf c iq j) ∧
  (∀ (w : Width) (s : State) (k : Nat), s.cfg.legal = true → tickOf s.cfg 0 ≤ requestOf s →
    k < s.cfg.nclk → tickOf s.cfg k ≤ requestOf s →
    (∀ j, j < s.cfg.nclk → tickOf s.cfg j ≤ requestOf s → j ≤ k) →
    (exec (.quant w) s = .next { s with status := 0x0011#16 } ↔ 2 ^ w.bits - 1 < countOf s.cfg (requestOf s) k))

/-- 41_quantizer.md R84: QUANT's result depends on INTV, W, TICK, NCLK and QPU and on nothing else. -/
def Obligations.QuantDependsOnlyOnRequestAndTable : Prop :=
  ∀ (w : Width) (s s' : State), s.intvHi = s'.intvHi → s.intvLo = s'.intvLo → s.cfg.tick = s'.cfg.tick →
    s.cfg.qpu = s'.cfg.qpu →
    ∃ t t', exec (.quant w) s = .next t ∧ exec (.quant w) s' = .next t' ∧ t.status = t'.status ∧
      (t.status = 0x0000#16 → t.qsel = t'.qsel ∧ t.reload = t'.reload ∧ t.ach0 = t'.ach0 ∧ t.ach1 = t'.ach1 ∧
        t.ach2 = t'.ach2 ∧ t.errm0 = t'.errm0 ∧ t.errm1 = t'.errm1)

/-- 41_quantizer.md R85: the failure sets of the reference table, at both widths. -/
def Obligations.ReferenceTableFailureSets : Prop :=
  ∀ s : State, s.cfg.tick = [1, 2, 4, 8, 16, 128] → s.cfg.qpu = 1 →
    ((exec (.quant .w16) s = .next { s with status := 0x0012#16 } ↔ s.intv = 0) ∧
     (exec (.quant .w16) s = .next { s with status := 0x0011#16 } ↔ 8388544 ≤ s.intv) ∧
     (0 < s.intv → s.intv < 8388544 → ∃ t, exec (.quant .w16) s = .next t ∧ t.status = 0x0000#16)) ∧
    ((exec (.quant .w8) s = .next { s with status := 0x0012#16 } ↔ s.intv = 0) ∧
     (exec (.quant .w8) s = .next { s with status := 0x0011#16 } ↔ 32704 ≤ s.intv) ∧
     (0 < s.intv → s.intv < 32704 → ∃ t, exec (.quant .w8) s = .next t ∧ t.status = 0x0000#16))

/-! ## The debounce unit -/

/-- 42_debounce.md R95: DBPOS, its word and its whole effect. LVL = SET, DIR = 1. -/
def Obligations.DbposFollowsItsRule : Prop :=
  (∀ (raw : Bool) (n : Nat), n < 256 →
    decode (BitVec.ofNat 16 (0x2000 + 256 * raw.toNat + n)) = .instr (.dbpos raw n)) ∧
  PollRule true 8 (fun f => if f then 4 else 0)

/-- 42_debounce.md R96: DBNEG, its word and its whole effect. LVL = 1 - SET, DIR = 0. -/
def Obligations.DbnegFollowsItsRule : Prop :=
  (∀ (raw : Bool) (n : Nat), n < 256 →
    decode (BitVec.ofNat 16 (0x3000 + 256 * raw.toNat + n)) = .instr (.dbneg raw n)) ∧
  PollRule false 0 (fun f => if f then 0 else 4)

/-- 42_debounce.md R97: DBINIT, its word and its whole effect. It reads no threshold. -/
def Obligations.DbinitFollowsItsRule : Prop :=
  (∀ n : Nat, n < 256 → decode (BitVec.ofNat 16 (0x4000 + n)) = .instr (.dbinit n)) ∧
  (∀ (s : State) (n : Nat), s.units.length = s.cfg.nDb →
    (s.cfg.nDb ≤ n → exec (.dbinit n) s = .next { s with status := 0x0004#16 }) ∧
    (n < s.cfg.nDb → ∃ t, exec (.dbinit n) s = .next t ∧ t.cnt n = 0x0000#16 ∧ t.settled n = false ∧
      t = { s with units := s.units.set n { cnt := 0x0000#16, settled := false }, status := 0x0000#16 }))

/-- 42_debounce.md R98: DBPEEK, its word and its whole effect. It changes no unit and emits no event. -/
def Obligations.DbpeekFollowsItsRule : Prop :=
  (∀ (d : Bool) (n : Nat), n < 256 →
    decode (BitVec.ofNat 16 (0x5000 + 256 * d.toNat + n)) = .instr (.dbpeek d n)) ∧
  (∀ (s : State) (d : Bool) (n : Nat), s.cfg.legal = true → s.units.length = s.cfg.nDb →
    (s.cfg.nDb ≤ n → exec (.dbpeek d n) s = .next { s with status := 0x0004#16 }) ∧
    (n < s.cfg.nDb → exec (.dbpeek d n) s = .next { s with
      dbcnt := s.cnt n
      dbflags := BitVec.ofNat 16 (256 * n + 8 * d.toNat + 4 * (if s.settled n then d.toNat else 1 - d.toNat) +
        2 * (s.settled n).toNat)
      status := 0x0000#16 }))

/-- 42_debounce.md R91: a poll emits a Settled event exactly when the sample is matching, CNT[n] is below T before it and
equal to T after it. -/
def Obligations.SettledEventExactlyAtThreshold : Prop :=
  ∀ (s : State) (d raw : Bool) (n : Nat), s.units.length = s.cfg.nDb → n < s.cfg.nDb → s.thresh ≠ 0x0000#16 →
    ∃ t, exec (pollCmd d raw n) s = .next t ∧
      (t.dbflags.getLsbD 0 = true ↔ raw = d ∧ (s.cnt n).toNat < s.thresh.toNat ∧ t.cnt n = s.thresh)

/-- 42_debounce.md R99: from CNT[n] = 0, j matching polls with a threshold T held constant give CNT[n] = min(j, T), and the
j-th poll emits the event exactly when j = T. Through the step, one CMD write a poll. -/
def Obligations.RunSettlesExactlyAtThreshold : Prop :=
  ∀ (s : State) (d : Bool) (n j : Nat) (rest : List HostEvent), s.cfg.legal = true →
    s.units.length = s.cfg.nDb → n < s.cfg.nDb → s.thresh ≠ 0x0000#16 → s.cnt n = 0x0000#16 →
    s.bus = List.replicate j (cmdWrite s.cfg (encode (pollCmd d d n))) ++ rest →
    ∃ t, Host.Core.run Sys2Proof.core j s = .next t ∧ t.bus = rest ∧
      (t.cnt n).toNat = min j s.thresh.toNat ∧
      (1 ≤ j → t.dbflags.getLsbD 0 = decide (j = s.thresh.toNat))

/-- 42_debounce.md R100: fewer than T matching polls and then one contrary poll leave CNT[n] = 0, and the next Settled event
takes exactly T further matching polls. -/
def Obligations.ContraryPollRestartsTheRun : Prop :=
  ∀ (s : State) (d : Bool) (n j m : Nat) (rest : List HostEvent), s.cfg.legal = true →
    s.units.length = s.cfg.nDb → n < s.cfg.nDb → s.thresh ≠ 0x0000#16 → j < s.thresh.toNat →
    s.bus = List.replicate j (cmdWrite s.cfg (encode (pollCmd d d n))) ++
      cmdWrite s.cfg (encode (pollCmd d (!d) n)) ::
      (List.replicate m (cmdWrite s.cfg (encode (pollCmd d d n))) ++ rest) →
    (∃ t, Host.Core.run Sys2Proof.core (j + 1) s = .next t ∧ t.cnt n = 0x0000#16 ∧ t.settled n = false ∧
      t.dbflags.getLsbD 0 = false) ∧
    (∃ t, Host.Core.run Sys2Proof.core (j + 1 + m) s = .next t ∧ t.bus = rest ∧
      (t.cnt n).toNat = min m s.thresh.toNat ∧
      (1 ≤ m → t.dbflags.getLsbD 0 = decide (m = s.thresh.toNat)))

/-- A run of j matching polls from any counter and flag (42_debounce.md section 1: the edge cases of R94 are its cases
CNT[n] ≥ T, where the counter holds and nothing is emitted, and CNT[n] < T with the flag already set, where a second event
comes and the flag stays set). -/
def Obligations.RunFromAnyCounter : Prop :=
  ∀ (s : State) (d : Bool) (n j : Nat) (rest : List HostEvent), s.cfg.legal = true →
    s.units.length = s.cfg.nDb → n < s.cfg.nDb → s.thresh ≠ 0x0000#16 →
    s.bus = List.replicate j (cmdWrite s.cfg (encode (pollCmd d d n))) ++ rest →
    ∃ t, Host.Core.run Sys2Proof.core j s = .next t ∧ t.bus = rest ∧
      (t.cnt n).toNat = max (s.cnt n).toNat (min ((s.cnt n).toNat + j) s.thresh.toNat) ∧
      t.settled n = (s.settled n ||
        decide ((s.cnt n).toNat < s.thresh.toNat ∧ s.thresh.toNat ≤ (s.cnt n).toNat + j)) ∧
      (1 ≤ j → t.dbflags.getLsbD 0 =
        decide ((s.cnt n).toNat < s.thresh.toNat ∧ (s.cnt n).toNat + j = s.thresh.toNat))

/-- No command reads or writes a unit other than the one it names (10_state.md section 4, R30): the others keep their values,
and what they hold changes nothing else in the outcome. -/
def Obligations.UnitsAreIndependent : Prop :=
  ∀ (i : Instr) (s t : State), exec i s = .next t →
    (∀ m, namedUnit i ≠ some m → t.cnt m = s.cnt m ∧ t.settled m = s.settled m) ∧
    (∀ us : List Debounce, us.length = s.units.length → (∀ n, namedUnit i = some n → us[n]? = s.units[n]?) →
      ∃ t', exec i { s with units := us } = .next t' ∧ { t' with units := t.units } = t ∧
        ∀ n, namedUnit i = some n → t'.units[n]? = t.units[n]?)

/-- The counter of a polled unit goes to 0, stays, or goes up by one as a number: it never wraps, and no matching sample
lowers it (10_state.md section 4, R31). -/
def Obligations.CounterNeverWraps : Prop :=
  ∀ (s t : State) (d raw : Bool) (n : Nat), s.units.length = s.cfg.nDb → exec (pollCmd d raw n) s = .next t →
    ((t.cnt n).toNat = 0 ∨ (t.cnt n).toNat = (s.cnt n).toNat ∨ (t.cnt n).toNat = (s.cnt n).toNat + 1) ∧
    (raw = d → (s.cnt n).toNat ≤ (t.cnt n).toNat)

/-! ## The host's accesses -/

/-- 20_memory.md R41: a word read at a register's offset returns the register, 0x0000 for the reserved slot and the INFO
constant for INFO, and changes nothing in the block. -/
def Obligations.WordReadReturnsTheRegister : Prop :=
  ∀ (s : State) (r : Reg) (rest : List HostEvent), s.cfg.legal = true →
    s.bus = .readWord (s.cfg.base + r.offset) :: rest →
    step s = .next { s with bus := rest, lastRead := some (.word (s.getReg r)) } ∧
    s.getReg .reserved = 0x0000#16 ∧ s.getReg .info = infoWord s.cfg

/-- 20_memory.md R43: a byte read returns the low byte of the slot at an even offset and the high byte at an odd one, and
changes nothing in the block. -/
def Obligations.ByteReadReturnsTheByte : Prop :=
  ∀ (s : State) (r : Reg) (rest : List HostEvent), s.cfg.legal = true →
    (s.bus = .readByte (s.cfg.base + r.offset) :: rest →
      step s = .next { s with bus := rest, lastRead := some (.byte (BitVec.ofNat 8 ((s.getReg r).toNat % 256))) }) ∧
    (s.bus = .readByte (s.cfg.base + r.offset + 1) :: rest →
      step s = .next { s with bus := rest, lastRead := some (.byte (BitVec.ofNat 8 ((s.getReg r).toNat / 256))) })

/-- 20_memory.md R42: a word write stores into INTV_LO, INTV_HI and THRESH, is ignored by the RO registers and the reserved
slot, and at CMD stores the word and executes it. -/
def Obligations.WordWriteByAccessClass : Prop :=
  ∀ (s : State) (r : Reg) (v : Word) (rest : List HostEvent), s.cfg.legal = true →
    s.bus = .writeWord (s.cfg.base + r.offset) v :: rest →
    (r = .intvLo → step s = .next { s with bus := rest, intvLo := v }) ∧
    (r = .intvHi → step s = .next { s with bus := rest, intvHi := v }) ∧
    (r = .thresh → step s = .next { s with bus := rest, thresh := v }) ∧
    (r ≠ .intvLo → r ≠ .intvHi → r ≠ .thresh → r ≠ .cmd → step s = .next { s with bus := rest }) ∧
    (r = .cmd →
      (∀ i, decode v = .instr i → step s = exec i { s with bus := rest, cmd := v }) ∧
      (∀ why, decode v = .illegal why → step s = .next { s with bus := rest, cmd := v, status := 0x0003#16 }))

/-- 20_memory.md R44: a byte write replaces that byte of INTV_LO, INTV_HI or THRESH and is ignored everywhere else, CMD
included, where it neither stores nor executes. -/
def Obligations.ByteWriteByAccessClass : Prop :=
  ∀ (s : State) (r : Reg) (b : Byte) (rest : List HostEvent), s.cfg.legal = true →
    (s.bus = .writeByte (s.cfg.base + r.offset) b :: rest →
      (r = .intvLo → step s = .next { s with
        bus := rest, intvLo := BitVec.ofNat 16 (s.intvLo.toNat / 256 * 256 + b.toNat) }) ∧
      (r = .intvHi → step s = .next { s with
        bus := rest, intvHi := BitVec.ofNat 16 (s.intvHi.toNat / 256 * 256 + b.toNat) }) ∧
      (r = .thresh → step s = .next { s with
        bus := rest, thresh := BitVec.ofNat 16 (s.thresh.toNat / 256 * 256 + b.toNat) }) ∧
      (r ≠ .intvLo → r ≠ .intvHi → r ≠ .thresh → step s = .next { s with bus := rest })) ∧
    (s.bus = .writeByte (s.cfg.base + r.offset + 1) b :: rest →
      (r = .intvLo → step s = .next { s with
        bus := rest, intvLo := BitVec.ofNat 16 (256 * b.toNat + s.intvLo.toNat % 256) }) ∧
      (r = .intvHi → step s = .next { s with
        bus := rest, intvHi := BitVec.ofNat 16 (256 * b.toNat + s.intvHi.toNat % 256) }) ∧
      (r = .thresh → step s = .next { s with
        bus := rest, thresh := BitVec.ofNat 16 (256 * b.toNat + s.thresh.toNat % 256) }) ∧
      (r ≠ .intvLo → r ≠ .intvHi → r ≠ .thresh → step s = .next { s with bus := rest }))

/-- 20_memory.md R40: a word access at an odd offset of the window has no step; a byte access has no alignment
requirement. -/
def Obligations.OddWordAccessIsRefused : Prop :=
  ∀ (s : State) (o : Nat) (rest : List HostEvent), s.cfg.legal = true → o < 32 →
    (o % 2 = 1 → s.bus = .readWord (s.cfg.base + o) :: rest → step s = .refused .misalignedWord) ∧
    (∀ v, o % 2 = 1 → s.bus = .writeWord (s.cfg.base + o) v :: rest → step s = .refused .misalignedWord) ∧
    (s.bus = .readByte (s.cfg.base + o) :: rest → ∃ t, step s = .next t) ∧
    (∀ b, s.bus = .writeByte (s.cfg.base + o) b :: rest → ∃ t, step s = .next t)

/-- An access outside the window is refused by name (the model's choice, log entry 4; 20_memory.md section 1 says that it is
not the block's concern). -/
def Obligations.AccessOutsideWindowIsRefused : Prop :=
  ∀ (s : State) (a : Nat) (rest : List HostEvent), s.cfg.legal = true →
    (a < s.cfg.base ∨ s.cfg.base + 32 ≤ a) →
    (s.bus = .readByte a :: rest → step s = .refused .outsideWindow) ∧
    (s.bus = .readWord a :: rest → step s = .refused .outsideWindow) ∧
    (∀ b, s.bus = .writeByte a b :: rest → step s = .refused .outsideWindow) ∧
    (∀ v, s.bus = .writeWord a v :: rest → step s = .refused .outsideWindow)

/-- 20_memory.md R39: a word is the byte at its odd offset above the byte at its even one, and the wide values INTV, ACH and
ERRM have their least significant word at the lowest offset. -/
def Obligations.WindowIsLittleEndian : Prop :=
  ∀ s : State,
    (∀ r : Reg, s.windowWord r.offset = s.windowByte (r.offset + 1) ++ s.windowByte r.offset ∧
      s.windowByte r.offset = (s.getReg r).extractLsb' 0 8 ∧
      s.windowByte (r.offset + 1) = (s.getReg r).extractLsb' 8 8) ∧
    s.intv = (s.windowByte 4).toNat + 256 * (s.windowByte 5).toNat + 256 ^ 2 * (s.windowByte 6).toNat +
      256 ^ 3 * (s.windowByte 7).toNat ∧
    s.ach = (s.windowByte 14).toNat + 256 * (s.windowByte 15).toNat + 256 ^ 2 * (s.windowByte 16).toNat +
      256 ^ 3 * (s.windowByte 17).toNat + 256 ^ 4 * (s.windowByte 18).toNat + 256 ^ 5 * (s.windowByte 19).toNat ∧
    s.errm = (s.windowByte 20).toNat + 256 * (s.windowByte 21).toNat + 256 ^ 2 * (s.windowByte 22).toNat +
      256 ^ 3 * (s.windowByte 23).toNat

/-- A word read straight after a word write to INTV_LO, INTV_HI, THRESH or CMD returns the word written, an illegal command
word included (20_memory.md section 7; 10_state.md section 3). -/
def Obligations.ReadAfterWriteReturnsTheWord : Prop :=
  ∀ (s : State) (r : Reg) (v : Word) (rest : List HostEvent), s.cfg.legal = true →
    (r = .intvLo ∨ r = .intvHi ∨ r = .thresh ∨ r = .cmd) →
    s.bus = .writeWord (s.cfg.base + r.offset) v :: .readWord (s.cfg.base + r.offset) :: rest →
    ∃ t, Host.Core.run Sys2Proof.core 2 s = .next t ∧ t.bus = rest ∧ t.lastRead = some (.word v) ∧ t.getReg r = v

/-- A host's 32-bit write of the interval, the word write of its low half and then that of its high half, sets INTV
(20_memory.md section 1; 00_scope.md section 4). That the low half comes first is the model's deduction (log entry 14,
DEDUCED). -/
def Obligations.LongWriteSetsTheInterval : Prop :=
  ∀ (s : State) (x : BitVec 32) (rest : List HostEvent), s.cfg.legal = true →
    s.bus = write32Events (s.cfg.base + 4) x ++ rest →
    ∃ t, Host.Core.run Sys2Proof.core 2 s = .next t ∧ t.intv = x.toNat ∧
      t = { s with bus := rest, intvLo := t.intvLo, intvHi := t.intvHi }

/-- Only a word write to CMD executes a command (10_state.md section 5, R33): any other access leaves CMD, STATUS, every
result register, every unit and the configuration as they were. -/
def Obligations.OnlyCmdWordWritesExecute : Prop :=
  ∀ (s t : State) (e : HostEvent) (rest : List HostEvent), s.bus = e :: rest → e ≠ .reset → e ≠ .powerCycle →
    (∀ v, e ≠ cmdWrite s.cfg v) → step s = .next t →
    t.bus = rest ∧ t.cfg = s.cfg ∧ t.units = s.units ∧ t.freeCount = s.freeCount ∧
    (∀ r, r ≠ .intvLo → r ≠ .intvHi → r ≠ .thresh → t.getReg r = s.getReg r)

/-- The accesses that the pseudo-instructions stand for (30_encoding.md section 5; what the host does with the words it
reads is the host's, log entry 14). -/
def Obligations.PseudoInstructionExpansions : Prop :=
  ∀ (c : Config) (n : Nat) (r : Bool) (t : Word) (x : BitVec 32), n < 256 →
    (HostStmt.quantize .w8 x).events c = some [.writeWord (c.base + 0x04) (x.extractLsb' 0 16),
      .writeWord (c.base + 0x06) (x.extractLsb' 16 16), .writeWord c.base 0x1000#16] ∧
    (HostStmt.quantize .w16 x).events c = some [.writeWord (c.base + 0x04) (x.extractLsb' 0 16),
      .writeWord (c.base + 0x06) (x.extractLsb' 16 16), .writeWord c.base 0x1001#16] ∧
    (HostStmt.pollpos n r t).events c = some [.writeWord (c.base + 0x08) t,
      .writeWord c.base (BitVec.ofNat 16 (0x2000 + 256 * r.toNat + n))] ∧
    (HostStmt.pollneg n r t).events c = some [.writeWord (c.base + 0x08) t,
      .writeWord c.base (BitVec.ofNat 16 (0x3000 + 256 * r.toNat + n))] ∧
    HostStmt.rdach.events c = some [.readWord (c.base + 0x0E), .readWord (c.base + 0x10),
      .readWord (c.base + 0x12)] ∧
    HostStmt.rderrm.events c = some [.readWord (c.base + 0x14), .readWord (c.base + 0x16)]

/-! ## Configuration, reset and invariants -/

/-- 00_scope.md R6: the legal ranges (with the order that R7 asks of the table), and that a configuration outside them is
rejected. -/
def Obligations.IllegalConfigurationIsRejected : Prop :=
  (∀ c : Config, c.legal = true ↔
    c.base % 32 = 0 ∧ (1 ≤ c.nclk ∧ c.nclk ≤ 16) ∧
    (∀ k, k < c.nclk → 1 ≤ tickOf c k ∧ tickOf c k ≤ 2 ^ 32 - 1) ∧
    (∀ j k, j < k → k < c.nclk → tickOf c j < tickOf c k) ∧
    (1 ≤ c.qpu ∧ c.qpu ≤ 65536) ∧ (1 ≤ c.nDb ∧ c.nDb ≤ 256)) ∧
  (∀ s : State, s.cfg.legal = false → step s = .refused .illegalConfiguration)

/-- 10_state.md R28: INFO is {0, NCLK - 1, N_DB - 1}, no step changes it, and it is 0x0501 for the reference configuration. -/
def Obligations.InfoIsConstant : Prop :=
  (∀ s : State, s.cfg.legal = true →
    (s.getReg .info).toNat % 256 = s.cfg.nDb - 1 ∧ (s.getReg .info).toNat / 256 % 16 = s.cfg.nclk - 1 ∧
    (s.getReg .info).toNat / 4096 = 0) ∧
  (∀ s t : State, step s = .next t → t.getReg .info = s.getReg .info) ∧
  State.reset.getReg .info = 0x0501#16

/-- 70_reset_and_hazards.md R116, the complete state after reset: every register 0x0000 but INFO, which is
{0, NCLK - 1, N_DB - 1}, and every CNT[n] and SET[n] 0. For every legal configuration, as the state after reset and as a reset
event in a run (R115), which leaves the configuration alone. -/
def Obligations.ResetClearsEverything : Prop :=
  (∀ c : Config, c.legal = true →
    (∀ r, r ≠ .info → (State.resetWith c).getReg r = 0x0000#16) ∧
    ((State.resetWith c).getReg .info).toNat = 256 * (c.nclk - 1) + (c.nDb - 1) ∧
    (∀ n, n < c.nDb → (State.resetWith c).units[n]? = some { cnt := 0x0000#16, settled := false }) ∧
    (State.resetWith c).units.length = c.nDb ∧ (State.resetWith c).cfg = c) ∧
  (∀ (s : State) (rest : List HostEvent), s.cfg.legal = true → s.bus = .reset :: rest →
    ∃ t, step s = .next t ∧ t.bus = rest ∧ t.cfg = s.cfg ∧ t.getReg .info = s.getReg .info ∧
      (∀ r, r ≠ .info → t.getReg r = 0x0000#16) ∧
      (∀ n, n < s.cfg.nDb → t.units[n]? = some { cnt := 0x0000#16, settled := false }) ∧
      t.units.length = s.cfg.nDb)

/-- With nothing on the bus the block does nothing (70_reset_and_hazards.md section 1; an idle step is the model's choice, log
entry 2), and a successful QUANT never leaves RELOAD = 0, so the reset value tells "no result yet". -/
def Obligations.NothingRunsUntilTheHostWrites : Prop :=
  (∀ s : State, s.cfg.legal = true → s.bus = [] → step s = .next s) ∧
  State.reset.reload = 0x0000#16 ∧
  (∀ (w : Width) (s t : State), s.cfg.legal = true → exec (.quant w) s = .next t → t.status = 0x0000#16 →
    t.reload ≠ 0x0000#16)

/-- Every step keeps the invariant: legal configuration, one unit for each index below N_DB, a STATUS word that exists, the
reserved fields of QSEL and DBFLAGS at 0 (10_state.md sections 1 and 3; after a power cycle it rests on log entry 6). -/
def Obligations.StepKeepsInvariant : Prop :=
  ∀ s t : State, s.Inv → step s = .next t → t.Inv

/-- The state after reset meets the invariant, for every legal configuration. -/
def Obligations.ResetMeetsInvariant : Prop :=
  State.reset.Inv ∧ ∀ c : Config, c.legal = true → (State.resetWith c).Inv

/-- Every step but a power cycle keeps the QU result registers coherent: CLKSEL a clock that exists, ACH = RELOAD ×
TICK[CLKSEL], ERRM at most half that tick (10_state.md section 3; 41_quantizer.md section 3). -/
def Obligations.StepKeepsQuantResultsCoherent : Prop :=
  ∀ s t : State, s.QuantCoherent → s.bus.head? ≠ some .powerCycle → step s = .next t → t.QuantCoherent

/-- Every step but a power cycle keeps this: a settled unit has counted at least one sample (42_debounce.md section 1). -/
def Obligations.StepKeepsSettledUnitsCounted : Prop :=
  ∀ s t : State, s.SettledHaveCounted → s.bus.head? ≠ some .powerCycle → step s = .next t → t.SettledHaveCounted

/-- The state after reset meets both, for every legal configuration. -/
def Obligations.ResetResultsAreCoherent : Prop :=
  ∀ c : Config, c.legal = true → (State.resetWith c).QuantCoherent ∧ (State.resetWith c).SettledHaveCounted

/-- A machine that meets the invariant and whose pending events are only aligned accesses inside the window, resets and
power-downs never stops: it performs every pending event, in order, and ends with the invariant (60_exceptions.md section 2:
nothing traps; 20_memory.md section 7). That the invariant holds after a power-down is the model's reading (log entry 6,
DEDUCED). -/
def Obligations.AnsweredStreamsRunToTheEnd : Prop :=
  ∀ (s : State) (k : Nat), s.Inv → s.BusAnswered → k ≤ s.bus.length →
    ∃ t, Host.Core.run Sys2Proof.core k s = .next t ∧ t.bus = s.bus.drop k ∧ t.cfg = s.cfg ∧ t.Inv
end

