-- ==== Sys2Proof/Laws/State.lean ====
section
/-! SUPPORT. What each named update of the state does to each field, once: the later proofs rewrite with these and
unfold no record update. -/

namespace Sys2Proof.Machine

-- raise: STATUS only (60_exceptions.md R106).
@[simp] theorem raise_cfg (c : Code) (s : State) : (raise c s).cfg = s.cfg := rfl
@[simp] theorem raise_cmd (c : Code) (s : State) : (raise c s).cmd = s.cmd := rfl
@[simp] theorem raise_status (c : Code) (s : State) : (raise c s).status = statusWord c := rfl
@[simp] theorem raise_intvLo (c : Code) (s : State) : (raise c s).intvLo = s.intvLo := rfl
@[simp] theorem raise_intvHi (c : Code) (s : State) : (raise c s).intvHi = s.intvHi := rfl
@[simp] theorem raise_thresh (c : Code) (s : State) : (raise c s).thresh = s.thresh := rfl
@[simp] theorem raise_qsel (c : Code) (s : State) : (raise c s).qsel = s.qsel := rfl
@[simp] theorem raise_reload (c : Code) (s : State) : (raise c s).reload = s.reload := rfl
@[simp] theorem raise_ach0 (c : Code) (s : State) : (raise c s).ach0 = s.ach0 := rfl
@[simp] theorem raise_ach1 (c : Code) (s : State) : (raise c s).ach1 = s.ach1 := rfl
@[simp] theorem raise_ach2 (c : Code) (s : State) : (raise c s).ach2 = s.ach2 := rfl
@[simp] theorem raise_errm0 (c : Code) (s : State) : (raise c s).errm0 = s.errm0 := rfl
@[simp] theorem raise_errm1 (c : Code) (s : State) : (raise c s).errm1 = s.errm1 := rfl
@[simp] theorem raise_dbcnt (c : Code) (s : State) : (raise c s).dbcnt = s.dbcnt := rfl
@[simp] theorem raise_dbflags (c : Code) (s : State) : (raise c s).dbflags = s.dbflags := rfl
@[simp] theorem raise_units (c : Code) (s : State) : (raise c s).units = s.units := rfl
@[simp] theorem raise_bus (c : Code) (s : State) : (raise c s).bus = s.bus := rfl
@[simp] theorem raise_lastRead (c : Code) (s : State) : (raise c s).lastRead = s.lastRead := rfl
@[simp] theorem raise_freeCount (c : Code) (s : State) : (raise c s).freeCount = s.freeCount := rfl

-- complete: STATUS only (60_exceptions.md R103).
@[simp] theorem complete_cfg (s : State) : (complete s).cfg = s.cfg := rfl
@[simp] theorem complete_cmd (s : State) : (complete s).cmd = s.cmd := rfl
@[simp] theorem complete_status (s : State) : (complete s).status = statusWord .ok := rfl
@[simp] theorem complete_intvLo (s : State) : (complete s).intvLo = s.intvLo := rfl
@[simp] theorem complete_intvHi (s : State) : (complete s).intvHi = s.intvHi := rfl
@[simp] theorem complete_thresh (s : State) : (complete s).thresh = s.thresh := rfl
@[simp] theorem complete_qsel (s : State) : (complete s).qsel = s.qsel := rfl
@[simp] theorem complete_reload (s : State) : (complete s).reload = s.reload := rfl
@[simp] theorem complete_ach0 (s : State) : (complete s).ach0 = s.ach0 := rfl
@[simp] theorem complete_ach1 (s : State) : (complete s).ach1 = s.ach1 := rfl
@[simp] theorem complete_ach2 (s : State) : (complete s).ach2 = s.ach2 := rfl
@[simp] theorem complete_errm0 (s : State) : (complete s).errm0 = s.errm0 := rfl
@[simp] theorem complete_errm1 (s : State) : (complete s).errm1 = s.errm1 := rfl
@[simp] theorem complete_dbcnt (s : State) : (complete s).dbcnt = s.dbcnt := rfl
@[simp] theorem complete_dbflags (s : State) : (complete s).dbflags = s.dbflags := rfl
@[simp] theorem complete_units (s : State) : (complete s).units = s.units := rfl
@[simp] theorem complete_bus (s : State) : (complete s).bus = s.bus := rfl
@[simp] theorem complete_lastRead (s : State) : (complete s).lastRead = s.lastRead := rfl
@[simp] theorem complete_freeCount (s : State) : (complete s).freeCount = s.freeCount := rfl

-- report: DBCNT and DBFLAGS (42_debounce.md R95, R98).
@[simp] theorem report_cfg (n : Nat) (d : Bool) (c : Word) (f e : Bool) (s : State) : (report n d c f e s).cfg = s.cfg := rfl
@[simp] theorem report_cmd (n : Nat) (d : Bool) (c : Word) (f e : Bool) (s : State) : (report n d c f e s).cmd = s.cmd := rfl
@[simp] theorem report_status (n : Nat) (d : Bool) (c : Word) (f e : Bool) (s : State) : (report n d c f e s).status = s.status := rfl
@[simp] theorem report_intvLo (n : Nat) (d : Bool) (c : Word) (f e : Bool) (s : State) : (report n d c f e s).intvLo = s.intvLo := rfl
@[simp] theorem report_intvHi (n : Nat) (d : Bool) (c : Word) (f e : Bool) (s : State) : (report n d c f e s).intvHi = s.intvHi := rfl
@[simp] theorem report_thresh (n : Nat) (d : Bool) (c : Word) (f e : Bool) (s : State) : (report n d c f e s).thresh = s.thresh := rfl
@[simp] theorem report_qsel (n : Nat) (d : Bool) (c : Word) (f e : Bool) (s : State) : (report n d c f e s).qsel = s.qsel := rfl
@[simp] theorem report_reload (n : Nat) (d : Bool) (c : Word) (f e : Bool) (s : State) : (report n d c f e s).reload = s.reload := rfl
@[simp] theorem report_ach0 (n : Nat) (d : Bool) (c : Word) (f e : Bool) (s : State) : (report n d c f e s).ach0 = s.ach0 := rfl
@[simp] theorem report_ach1 (n : Nat) (d : Bool) (c : Word) (f e : Bool) (s : State) : (report n d c f e s).ach1 = s.ach1 := rfl
@[simp] theorem report_ach2 (n : Nat) (d : Bool) (c : Word) (f e : Bool) (s : State) : (report n d c f e s).ach2 = s.ach2 := rfl
@[simp] theorem report_errm0 (n : Nat) (d : Bool) (c : Word) (f e : Bool) (s : State) : (report n d c f e s).errm0 = s.errm0 := rfl
@[simp] theorem report_errm1 (n : Nat) (d : Bool) (c : Word) (f e : Bool) (s : State) : (report n d c f e s).errm1 = s.errm1 := rfl
@[simp] theorem report_dbcnt (n : Nat) (d : Bool) (c : Word) (f e : Bool) (s : State) : (report n d c f e s).dbcnt = c := rfl
@[simp] theorem report_dbflags (n : Nat) (d : Bool) (c : Word) (f e : Bool) (s : State) : (report n d c f e s).dbflags = dbflagsWord n d (settledLevel d f) f e := rfl
@[simp] theorem report_units (n : Nat) (d : Bool) (c : Word) (f e : Bool) (s : State) : (report n d c f e s).units = s.units := rfl
@[simp] theorem report_bus (n : Nat) (d : Bool) (c : Word) (f e : Bool) (s : State) : (report n d c f e s).bus = s.bus := rfl
@[simp] theorem report_lastRead (n : Nat) (d : Bool) (c : Word) (f e : Bool) (s : State) : (report n d c f e s).lastRead = s.lastRead := rfl
@[simp] theorem report_freeCount (n : Nat) (d : Bool) (c : Word) (f e : Bool) (s : State) : (report n d c f e s).freeCount = s.freeCount := rfl

-- writeQuant: the QU result registers (41_quantizer.md R79).
@[simp] theorem writeQuant_cfg (b : Cand) (s : State) : (writeQuant b s).cfg = s.cfg := rfl
@[simp] theorem writeQuant_cmd (b : Cand) (s : State) : (writeQuant b s).cmd = s.cmd := rfl
@[simp] theorem writeQuant_status (b : Cand) (s : State) : (writeQuant b s).status = s.status := rfl
@[simp] theorem writeQuant_intvLo (b : Cand) (s : State) : (writeQuant b s).intvLo = s.intvLo := rfl
@[simp] theorem writeQuant_intvHi (b : Cand) (s : State) : (writeQuant b s).intvHi = s.intvHi := rfl
@[simp] theorem writeQuant_thresh (b : Cand) (s : State) : (writeQuant b s).thresh = s.thresh := rfl
@[simp] theorem writeQuant_qsel (b : Cand) (s : State) : (writeQuant b s).qsel = qselWord b.isOver b.k := rfl
@[simp] theorem writeQuant_reload (b : Cand) (s : State) : (writeQuant b s).reload = wordOf 0 b.c := rfl
@[simp] theorem writeQuant_ach0 (b : Cand) (s : State) : (writeQuant b s).ach0 = wordOf 0 b.a := rfl
@[simp] theorem writeQuant_ach1 (b : Cand) (s : State) : (writeQuant b s).ach1 = wordOf 1 b.a := rfl
@[simp] theorem writeQuant_ach2 (b : Cand) (s : State) : (writeQuant b s).ach2 = wordOf 2 b.a := rfl
@[simp] theorem writeQuant_errm0 (b : Cand) (s : State) : (writeQuant b s).errm0 = wordOf 0 b.e := rfl
@[simp] theorem writeQuant_errm1 (b : Cand) (s : State) : (writeQuant b s).errm1 = wordOf 1 b.e := rfl
@[simp] theorem writeQuant_dbcnt (b : Cand) (s : State) : (writeQuant b s).dbcnt = s.dbcnt := rfl
@[simp] theorem writeQuant_dbflags (b : Cand) (s : State) : (writeQuant b s).dbflags = s.dbflags := rfl
@[simp] theorem writeQuant_units (b : Cand) (s : State) : (writeQuant b s).units = s.units := rfl
@[simp] theorem writeQuant_bus (b : Cand) (s : State) : (writeQuant b s).bus = s.bus := rfl
@[simp] theorem writeQuant_lastRead (b : Cand) (s : State) : (writeQuant b s).lastRead = s.lastRead := rfl
@[simp] theorem writeQuant_freeCount (b : Cand) (s : State) : (writeQuant b s).freeCount = s.freeCount := rfl

-- setUnit: the debounce file (10_state.md R30).
@[simp] theorem setUnit_cfg (s : State) (n : Nat) (c : Word) (f : Bool) : (s.setUnit n c f).cfg = s.cfg := rfl
@[simp] theorem setUnit_cmd (s : State) (n : Nat) (c : Word) (f : Bool) : (s.setUnit n c f).cmd = s.cmd := rfl
@[simp] theorem setUnit_status (s : State) (n : Nat) (c : Word) (f : Bool) : (s.setUnit n c f).status = s.status := rfl
@[simp] theorem setUnit_intvLo (s : State) (n : Nat) (c : Word) (f : Bool) : (s.setUnit n c f).intvLo = s.intvLo := rfl
@[simp] theorem setUnit_intvHi (s : State) (n : Nat) (c : Word) (f : Bool) : (s.setUnit n c f).intvHi = s.intvHi := rfl
@[simp] theorem setUnit_thresh (s : State) (n : Nat) (c : Word) (f : Bool) : (s.setUnit n c f).thresh = s.thresh := rfl
@[simp] theorem setUnit_qsel (s : State) (n : Nat) (c : Word) (f : Bool) : (s.setUnit n c f).qsel = s.qsel := rfl
@[simp] theorem setUnit_reload (s : State) (n : Nat) (c : Word) (f : Bool) : (s.setUnit n c f).reload = s.reload := rfl
@[simp] theorem setUnit_ach0 (s : State) (n : Nat) (c : Word) (f : Bool) : (s.setUnit n c f).ach0 = s.ach0 := rfl
@[simp] theorem setUnit_ach1 (s : State) (n : Nat) (c : Word) (f : Bool) : (s.setUnit n c f).ach1 = s.ach1 := rfl
@[simp] theorem setUnit_ach2 (s : State) (n : Nat) (c : Word) (f : Bool) : (s.setUnit n c f).ach2 = s.ach2 := rfl
@[simp] theorem setUnit_errm0 (s : State) (n : Nat) (c : Word) (f : Bool) : (s.setUnit n c f).errm0 = s.errm0 := rfl
@[simp] theorem setUnit_errm1 (s : State) (n : Nat) (c : Word) (f : Bool) : (s.setUnit n c f).errm1 = s.errm1 := rfl
@[simp] theorem setUnit_dbcnt (s : State) (n : Nat) (c : Word) (f : Bool) : (s.setUnit n c f).dbcnt = s.dbcnt := rfl
@[simp] theorem setUnit_dbflags (s : State) (n : Nat) (c : Word) (f : Bool) : (s.setUnit n c f).dbflags = s.dbflags := rfl
@[simp] theorem setUnit_units (s : State) (n : Nat) (c : Word) (f : Bool) : (s.setUnit n c f).units = s.units.set n { cnt := c, settled := f } := rfl
@[simp] theorem setUnit_bus (s : State) (n : Nat) (c : Word) (f : Bool) : (s.setUnit n c f).bus = s.bus := rfl
@[simp] theorem setUnit_lastRead (s : State) (n : Nat) (c : Word) (f : Bool) : (s.setUnit n c f).lastRead = s.lastRead := rfl
@[simp] theorem setUnit_freeCount (s : State) (n : Nat) (c : Word) (f : Bool) : (s.setUnit n c f).freeCount = s.freeCount := rfl

-- setReg: no field outside the registers.
@[simp] theorem setReg_cfg (s : State) (r : Reg) (v : Word) : (s.setReg r v).cfg = s.cfg := by
  cases r <;> rfl

@[simp] theorem setReg_units (s : State) (r : Reg) (v : Word) : (s.setReg r v).units = s.units := by
  cases r <;> rfl

@[simp] theorem setReg_bus (s : State) (r : Reg) (v : Word) : (s.setReg r v).bus = s.bus := by
  cases r <;> rfl

@[simp] theorem setReg_lastRead (s : State) (r : Reg) (v : Word) : (s.setReg r v).lastRead = s.lastRead := by
  cases r <;> rfl

@[simp] theorem setReg_freeCount (s : State) (r : Reg) (v : Word) : (s.setReg r v).freeCount = s.freeCount := by
  cases r <;> rfl

/-- A register that is no constant reads back what was written to it. -/
theorem getReg_setReg_same (s : State) (v : Word) {r : Reg} (h1 : r ≠ .reserved) (h2 : r ≠ .info) :
    (s.setReg r v).getReg r = v := by
  cases r <;> first | rfl | contradiction

/-- Writing one register changes no other. -/
theorem getReg_setReg_other (s : State) (v : Word) {r r' : Reg} (h : r ≠ r') :
    (s.setReg r v).getReg r' = s.getReg r' := by
  cases r <;> cases r' <;> first | rfl | contradiction

/-- The two constants read the same whatever was written (10_state.md R27, R28). -/
@[simp] theorem getReg_reserved (s : State) : s.getReg .reserved = 0x0000#16 := rfl
@[simp] theorem getReg_info (s : State) : s.getReg .info = infoWord s.cfg := rfl

/-- Equal configurations and equal storage give equal registers. -/
theorem getReg_congr {s t : State} (hc : t.cfg = s.cfg)
    (h : ∀ r, r ≠ .info → t.getReg r = s.getReg r) (r : Reg) : t.getReg r = s.getReg r := by
  by_cases hr : r = .info
  · subst hr; simp [hc]
  · exact h r hr

/-- CNT[n] and SET[n] after writing unit n, where it exists. -/
theorem cnt_setUnit_same {s : State} {n : Nat} (c : Word) (f : Bool) (h : n < s.units.length) :
    (s.setUnit n c f).cnt n = c := by
  simp [State.cnt, State.setUnit, h]

theorem settled_setUnit_same {s : State} {n : Nat} (c : Word) (f : Bool) (h : n < s.units.length) :
    (s.setUnit n c f).settled n = f := by
  simp [State.settled, State.setUnit, h]

/-- No other unit changes (10_state.md R30). -/
theorem cnt_setUnit_other {s : State} {n m : Nat} (c : Word) (f : Bool) (h : n ≠ m) :
    (s.setUnit n c f).cnt m = s.cnt m := by
  simp [State.cnt, State.setUnit, List.getD, List.getElem?_set_ne h]

theorem settled_setUnit_other {s : State} {n m : Nat} (c : Word) (f : Bool) (h : n ≠ m) :
    (s.setUnit n c f).settled m = s.settled m := by
  simp [State.settled, State.setUnit, List.getD, List.getElem?_set_ne h]

/-- The file keeps its length. -/
@[simp] theorem length_setUnit (s : State) (n : Nat) (c : Word) (f : Bool) :
    (s.setUnit n c f).units.length = s.units.length := by
  simp

end Sys2Proof.Machine
end

