-- ==== Sys2Proof/Laws/Ops.lean ====
section
/-! SUPPORT. The laws of the shared operations: the STATUS words, the window's offsets, bytes and words, and the
multi-word groups. -/

namespace Sys2Proof

/-- An address is in the window exactly when the block answers an offset for it (20_memory.md R38). -/
theorem locate_eq_some {c : Config} {a o : Nat} :
    c.locate a = some o ↔ c.base ≤ a ∧ a < c.base + 32 ∧ o = a - c.base := by
  unfold Config.locate
  split <;> simp <;> omega

theorem locate_eq_none {c : Config} {a : Nat} : c.locate a = none ↔ a < c.base ∨ c.base + 32 ≤ a := by
  unfold Config.locate
  split <;> simp <;> omega

/-- The address of an offset below 0x20 locates to it. -/
theorem locate_base_add {c : Config} {o : Nat} (h : o < 32) : c.locate (c.base + o) = some o :=
  locate_eq_some.mpr ⟨by omega, by omega, by omega⟩

/-- The bounds that a legal configuration gives (00_scope.md R6). -/
theorem Config.bounds_of_legal {c : Config} (h : c.legal = true) :
    1 ≤ c.nclk ∧ c.nclk ≤ 16 ∧ 1 ≤ c.qpu ∧ c.qpu ≤ 65536 ∧ 1 ≤ c.nDb ∧ c.nDb ≤ 256 := by
  simp only [Config.legal, Bool.and_eq_true, decide_eq_true_eq] at h
  omega

/-- Every tick of a legal table is in 1..2^32-1 (00_scope.md R6). -/
theorem Config.tick_range_of_legal {c : Config} (h : c.legal = true) {t : Nat} (ht : t ∈ c.tick) :
    1 ≤ t ∧ t ≤ 2 ^ 32 - 1 := by
  simp only [Config.legal, Bool.and_eq_true, List.all_eq_true, decide_eq_true_eq] at h
  obtain ⟨⟨⟨⟨⟨⟨⟨_, _⟩, hall⟩, _⟩, _⟩, _⟩, _⟩, _⟩ := h
  exact hall t ht

/-- A strictly increasing list is pairwise increasing (00_scope.md R7). -/
theorem pairwise_of_strictlyIncreasing : ∀ {l : List Nat}, strictlyIncreasing l = true → l.Pairwise (· < ·)
  | [], _ => List.Pairwise.nil
  | [_], _ => List.pairwise_singleton _ _
  | a :: b :: rest, h => by
    simp only [strictlyIncreasing, Bool.and_eq_true, decide_eq_true_eq] at h
    have ih := pairwise_of_strictlyIncreasing h.2
    refine List.Pairwise.cons ?_ ih
    intro x hx
    rcases List.mem_cons.mp hx with rfl | hx
    · exact h.1
    · exact Nat.lt_trans h.1 ((List.pairwise_cons.mp ih).1 x hx)

/-- The clock table of a legal configuration is ordered finest first (00_scope.md R7). -/
theorem Config.tick_pairwise_of_legal {c : Config} (h : c.legal = true) : c.tick.Pairwise (· < ·) := by
  simp only [Config.legal, Bool.and_eq_true] at h
  exact pairwise_of_strictlyIncreasing h.1.1.1.1.2

/-- A three-word group holds any value below 2^48 (10_state.md R23). -/
theorem words3_wordOf {x : Nat} (h : x < 2 ^ 48) : words3 (wordOf 2 x) (wordOf 1 x) (wordOf 0 x) = x := by
  simp only [words3, wordOf, BitVec.toNat_ofNat]
  omega

/-- A two-word group holds any value below 2^32 (10_state.md R24). -/
theorem words2_wordOf {x : Nat} (h : x < 2 ^ 32) : words2 (wordOf 1 x) (wordOf 0 x) = x := by
  simp only [words2, wordOf, BitVec.toNat_ofNat]
  omega

/-- INTV is a 32-bit number (00_scope.md R9). -/
theorem words2_lt (hi lo : Word) : words2 hi lo < 2 ^ 32 := by
  have h1 := hi.isLt
  have h2 := lo.isLt
  simp only [words2]
  omega

namespace Machine

/-- The six STATUS words (60_exceptions.md R103). -/
@[simp] theorem statusWord_ok : statusWord .ok = 0x0000#16 := by decide
@[simp] theorem statusWord_outOfRange : statusWord .outOfRange = 0x0011#16 := by decide
@[simp] theorem statusWord_subTick : statusWord .subTick = 0x0012#16 := by decide
@[simp] theorem statusWord_illegal : statusWord .illegal = 0x0003#16 := by decide
@[simp] theorem statusWord_badInst : statusWord .badInst = 0x0004#16 := by decide
@[simp] theorem statusWord_badThresh : statusWord .badThresh = 0x0005#16 := by decide

theorem statusWord_legal (c : Code) : StatusLegal (statusWord c) := by cases c <;> decide

theorem freeStatus_legal (v : Word) : StatusLegal (freeStatus v) := by
  unfold freeStatus
  split <;> exact statusWord_legal _

/-- raise and complete, as record updates. -/
theorem raise_eq (c : Code) (s : State) : raise c s = { s with status := statusWord c } := rfl

theorem complete_eq (s : State) : complete s = { s with status := 0x0000#16 } := by
  simp [complete, State.setReg]

/-- The slot of a register's offset, and of the odd offset beside it, is that register (10_state.md R16). -/
@[simp] theorem ofOffset_offset (r : Reg) : Reg.ofOffset r.offset = r := by cases r <;> rfl

@[simp] theorem ofOffset_offset_succ (r : Reg) : Reg.ofOffset (r.offset + 1) = r := by cases r <;> rfl

theorem offset_even (r : Reg) : r.offset % 2 = 0 := by cases r <;> rfl

theorem offset_le (r : Reg) : r.offset ≤ 30 := by cases r <;> decide

/-- CMD is the only register of class CMD (10_state.md R33). -/
theorem access_eq_cmd {r : Reg} : r.access = .cmd ↔ r = .cmd := by cases r <;> decide

/-- A word is its two bytes (20_memory.md R39). -/
theorem highByte_append_lowByte (v : Word) : highByte v ++ lowByte v = v := by
  apply BitVec.eq_of_toNat_eq
  have h := v.isLt
  simp only [highByte, lowByte, BitVec.toNat_append, BitVec.extractLsb'_toNat,
    Nat.shiftRight_eq_div_pow]
  rw [← Nat.shiftLeft_add_eq_or_of_lt (by omega), Nat.shiftLeft_eq]
  omega

@[simp] theorem lowByte_append (h l : Byte) : lowByte (h ++ l) = l := by
  apply BitVec.eq_of_toNat_eq
  have h2 := l.isLt
  simp only [lowByte, BitVec.extractLsb'_toNat, BitVec.toNat_append, Nat.shiftRight_zero]
  rw [← Nat.shiftLeft_add_eq_or_of_lt h2, Nat.shiftLeft_eq]
  omega

@[simp] theorem highByte_append (h l : Byte) : highByte (h ++ l) = h := by
  apply BitVec.eq_of_toNat_eq
  have h1 := h.isLt
  have h2 := l.isLt
  simp only [highByte, BitVec.extractLsb'_toNat, BitVec.toNat_append, Nat.shiftRight_eq_div_pow]
  rw [← Nat.shiftLeft_add_eq_or_of_lt h2, Nat.shiftLeft_eq]
  omega

/-- The QSEL word in numbers. -/
theorem qselWord_eq (isOver : Bool) {k : Nat} (h : k < 16) :
    qselWord isOver k = BitVec.ofNat 16 (256 * isOver.toNat + k) := by
  have : ∀ j : Fin 16, ∀ o : Bool, qselWord o j = BitVec.ofNat 16 (256 * o.toNat + j) := by decide
  exact this ⟨k, h⟩ isOver

/-- The stuck bits of QSEL and DBFLAGS (10_state.md R21, R26). -/
theorem qselWord_stuck (isOver : Bool) (k : Nat) : qselWord isOver k &&& 0xFEF0#16 = 0#16 := by
  have : ∀ j : BitVec 4, ∀ o : Bool, 0#7 ++ BitVec.ofBool o ++ 0#4 ++ j &&& 0xFEF0#16 = 0#16 := by decide
  exact this (BitVec.ofNat 4 k) isOver

theorem dbflagsWord_stuck (n : Nat) (d l f e : Bool) : dbflagsWord n d l f e &&& 0x00F0#16 = 0#16 := by
  have : ∀ j : BitVec 8, j ++ 0#4 ++ BitVec.ofBool d ++ BitVec.ofBool l ++ BitVec.ofBool f ++ BitVec.ofBool e
      &&& 0x00F0#16 = 0#16 := by
    cases d <;> cases l <;> cases f <;> cases e <;> decide +kernel
  exact this (BitVec.ofNat 8 n)

/-- The DBFLAGS word in numbers. -/
theorem dbflagsWord_eq {n : Nat} (h : n < 256) (d l f e : Bool) :
    dbflagsWord n d l f e = BitVec.ofNat 16 (256 * n + 8 * d.toNat + 4 * l.toNat + 2 * f.toNat + e.toNat) := by
  have : ∀ j : Fin 256, dbflagsWord j d l f e =
      BitVec.ofNat 16 (256 * j + 8 * d.toNat + 4 * l.toNat + 2 * f.toNat + e.toNat) := by
    cases d <;> cases l <;> cases f <;> cases e <;> decide +kernel
  exact this ⟨n, h⟩

/-- The bytes of a word in numbers (20_memory.md R39). -/
theorem lowByte_eq (v : Word) : lowByte v = BitVec.ofNat 8 (v.toNat % 256) := by
  apply BitVec.eq_of_toNat_eq
  simp [lowByte]

theorem highByte_eq (v : Word) : highByte v = BitVec.ofNat 8 (v.toNat / 256) := by
  apply BitVec.eq_of_toNat_eq
  simp [highByte, Nat.shiftRight_eq_div_pow]

/-- The two addresses of a register locate to its slot. -/
theorem locate_offset (c : Config) (r : Reg) : c.locate (c.base + r.offset) = some r.offset :=
  locate_base_add (by have := offset_le r; omega)

theorem locate_offset_succ (c : Config) (r : Reg) : c.locate (c.base + r.offset + 1) = some (r.offset + 1) := by
  rw [Nat.add_assoc]
  exact locate_base_add (by have := offset_le r; omega)

end Machine

end Sys2Proof
end

