-- ==== Sys2Proof/Laws/DebounceUnit.lean ====
section
/-! SUPPORT. What one poll does to one unit, and what the shared POLL answers, once. -/

namespace Sys2Proof.Machine

/-- A matching sample below the threshold counts (42_debounce.md R89, R91). -/
theorem pollUnit_count {d raw : Bool} {t c : Nat} (f : Bool) (hm : raw = d) (hc : c < t) :
    pollUnit d raw t c f = { cnt := c + 1, settled := f || decide (c + 1 = t), evt := decide (c + 1 = t) } := by
  simp [pollUnit, hm, hc]

/-- A matching sample at or above the threshold holds (42_debounce.md R89). -/
theorem pollUnit_hold {d raw : Bool} {t c : Nat} (f : Bool) (hm : raw = d) (hc : t ≤ c) :
    pollUnit d raw t c f = { cnt := c, settled := f, evt := false } := by
  simp [pollUnit, hm, Nat.not_lt.mpr hc]

/-- A contrary sample clears (42_debounce.md R90). -/
theorem pollUnit_contrary {d raw : Bool} (t c : Nat) (f : Bool) (hm : raw ≠ d) :
    pollUnit d raw t c f = { cnt := 0, settled := false, evt := false } := by
  simp [pollUnit, hm]

/-- The counter stays a 16-bit number: it never wraps (10_state.md R31). -/
theorem pollUnit_cnt_lt {d raw : Bool} {t c : Nat} (f : Bool) (hc : c < 65536) (ht : t < 65536) :
    (pollUnit d raw t c f).cnt < 65536 := by
  simp only [pollUnit]
  split <;> [split; skip] <;> simp <;> omega

/-- An event settles, and a settled unit has counted (42_debounce.md R91, R92). -/
theorem pollUnit_settled_pos {d raw : Bool} {t c : Nat} {f : Bool} (hf : f = true → c ≠ 0)
    (h : (pollUnit d raw t c f).settled = true) : (pollUnit d raw t c f).cnt ≠ 0 := by
  by_cases hm : raw = d
  · by_cases hc : c < t
    · rw [pollUnit_count f hm hc]
      exact Nat.succ_ne_zero c
    · rw [pollUnit_hold f hm (by omega)] at h ⊢
      exact hf h
  · rw [pollUnit_contrary t c f hm] at h
    cases h

/-- POLL refuses an instance that does not exist (42_debounce.md R86). -/
theorem poll_badInst {d raw : Bool} {n : Nat} {s : State} (h : s.cfg.nDb ≤ n) : poll d raw n s = raise .badInst s := by
  simp [poll, h]

/-- POLL refuses a threshold of 0 (42_debounce.md R87). -/
theorem poll_badThresh {d raw : Bool} {n : Nat} {s : State} (h : n < s.cfg.nDb) (ht : s.threshold = 0) :
    poll d raw n s = raise .badThresh s := by
  simp [poll, Nat.not_le.mpr h, ht]

/-- POLL of an instance that exists with a threshold (42_debounce.md R95). -/
theorem poll_ok {d raw : Bool} {n : Nat} {s : State} {p : Polled} (h : n < s.cfg.nDb) (ht : s.threshold ≠ 0)
    (hp : pollUnit d raw s.threshold (s.cnt n).toNat (s.settled n) = p) :
    poll d raw n s = complete (report n d (BitVec.ofNat 16 p.cnt) p.settled p.evt
      (s.setUnit n (BitVec.ofNat 16 p.cnt) p.settled)) := by
  subst hp
  simp [poll, Nat.not_le.mpr h, ht]

/-- Everything POLL can do. -/
theorem poll_cases (d raw : Bool) (n : Nat) (s : State) :
    (s.cfg.nDb ≤ n ∧ poll d raw n s = raise .badInst s) ∨
    (n < s.cfg.nDb ∧ s.threshold = 0 ∧ poll d raw n s = raise .badThresh s) ∨
    (n < s.cfg.nDb ∧ s.threshold ≠ 0 ∧ ∃ p, pollUnit d raw s.threshold (s.cnt n).toNat (s.settled n) = p ∧
      poll d raw n s = complete (report n d (BitVec.ofNat 16 p.cnt) p.settled p.evt
        (s.setUnit n (BitVec.ofNat 16 p.cnt) p.settled))) := by
  by_cases h : s.cfg.nDb ≤ n
  · exact Or.inl ⟨h, poll_badInst h⟩
  · by_cases ht : s.threshold = 0
    · exact Or.inr (Or.inl ⟨by omega, ht, poll_badThresh (by omega) ht⟩)
    · exact Or.inr (Or.inr ⟨by omega, ht, _, rfl, poll_ok (by omega) ht rfl⟩)

/-- The threshold as a number is 0 exactly when THRESH is. -/
theorem threshold_ne_zero {s : State} : s.threshold ≠ 0 ↔ s.thresh ≠ 0x0000#16 := by
  simp only [State.threshold, ne_eq, not_iff_not]
  constructor
  · intro h
    apply BitVec.eq_of_toNat_eq
    simpa using h
  · intro h
    simp [h]

/-- DBFLAGS.EVT of the word built from its fields. -/
theorem dbflagsWord_evt (n : Nat) (d l f e : Bool) : (dbflagsWord n d l f e).getLsbD 0 = e := by
  simp only [dbflagsWord, BitVec.getLsbD_append]
  simp

/-- What a poll that runs leaves to see: counter, flag and event. -/
theorem poll_observed {d raw : Bool} {n : Nat} {s : State} {p : Polled} (h : n < s.cfg.nDb)
    (hlen : s.units.length = s.cfg.nDb) (ht : s.threshold ≠ 0)
    (hp : pollUnit d raw s.threshold (s.cnt n).toNat (s.settled n) = p) :
    ((poll d raw n s).cnt n).toNat = p.cnt ∧ (poll d raw n s).settled n = p.settled ∧
    (poll d raw n s).dbflags.getLsbD 0 = p.evt := by
  have hlt : p.cnt < 65536 := hp ▸ pollUnit_cnt_lt _ (s.cnt n).isLt s.thresh.isLt
  rw [poll_ok h ht hp]
  refine ⟨?_, ?_, ?_⟩
  · simp [complete_eq, report, State.cnt, State.setUnit, hlen, h]
    omega
  · simp [complete_eq, report, State.settled, State.setUnit, hlen, h]
  · rw [complete_dbflags, report_dbflags, dbflagsWord_evt]

end Sys2Proof.Machine
end

