-- ==== Sys2Proof/Laws/Decode.lean ====
section
/-! SUPPORT. The slices the decoder takes, in numbers. -/

namespace Sys2Proof

theorem slice_op (v : Word) : slice v 15 12 = v.toNat / 4096 := by
  have h := v.isLt
  simp only [slice]
  omega

theorem slice_low12 (v : Word) : slice v 11 0 = v.toNat % 4096 := by
  simp only [slice]
  omega

theorem slice_11_1 (v : Word) : slice v 11 1 = v.toNat % 4096 / 2 := by
  simp only [slice]
  omega

theorem slice_11_9 (v : Word) : slice v 11 9 = v.toNat % 4096 / 512 := by
  simp only [slice]
  omega

theorem slice_11_8 (v : Word) : slice v 11 8 = v.toNat % 4096 / 256 := by
  simp only [slice]
  omega

theorem slice_low8 (v : Word) : slice v 7 0 = v.toNat % 256 := by
  simp only [slice]
  omega

theorem bitAt_eq (v : Word) (i : Nat) : bitAt v i = decide (v.toNat / 2 ^ i % 2 = 1) := by
  have h : i + 1 - i = 1 := by omega
  simp only [bitAt, slice, h, pow_one]
  by_cases h2 : v.toNat / 2 ^ i % 2 = 1 <;> simp [h2]

/-- The spec's v[i] is the i-th bit of the bit vector. -/
theorem bitAt_eq_getLsbD (v : Word) (i : Nat) : bitAt v i = v.getLsbD i := by
  rw [bitAt_eq, BitVec.getLsbD, Nat.testBit_eq_decide_div_mod_eq]

@[simp] theorem widthOfBit_true : widthOfBit true = .w16 := rfl
@[simp] theorem widthOfBit_false : widthOfBit false = .w8 := rfl

/-- The decoder in numbers. -/
theorem decode_eq (v : Word) : decode v =
    (if v.toNat / 4096 = 0 then
      (if v.toNat % 4096 = 0 then .instr .nop else .illegal .reservedBits)
    else if v.toNat / 4096 = 1 then
      (if v.toNat % 4096 / 2 = 0 then .instr (.quant (widthOfBit (bitAt v 0))) else .illegal .reservedBits)
    else if v.toNat / 4096 = 2 then
      (if v.toNat % 4096 / 512 = 0 then .instr (.dbpos (bitAt v 8) (v.toNat % 256)) else .illegal .reservedBits)
    else if v.toNat / 4096 = 3 then
      (if v.toNat % 4096 / 512 = 0 then .instr (.dbneg (bitAt v 8) (v.toNat % 256)) else .illegal .reservedBits)
    else if v.toNat / 4096 = 4 then
      (if v.toNat % 4096 / 256 = 0 then .instr (.dbinit (v.toNat % 256)) else .illegal .reservedBits)
    else if v.toNat / 4096 = 5 then
      (if v.toNat % 4096 / 512 = 0 then .instr (.dbpeek (bitAt v 8) (v.toNat % 256)) else .illegal .reservedBits)
    else .illegal .reservedOpcode) := by
  simp only [decode, slice_op, slice_low12, slice_11_1, slice_11_9, slice_11_8, slice_low8]
  split <;> rename_i h <;> simp_all

end Sys2Proof
end

