-- ==== Sys2Proof/Laws/PerInstr.lean ====
section
/-! SUPPORT. Per-instruction families. `TableRow`: the word of a well-formed command matches its row of
spec/opcode_table.json, mask and match as the table has them (30_encoding.md R58). -/

namespace Sys2Proof.Laws.TableRow

/-- The column "mask" of the row. -/
def mask : Instr → Word
  | .nop => 0xFFFF#16
  | .quant _ => 0xFFFE#16
  | .dbpos _ _ => 0xFE00#16
  | .dbneg _ _ => 0xFE00#16
  | .dbinit _ => 0xFF00#16
  | .dbpeek _ _ => 0xFE00#16

/-- The column "match" of the row. -/
def pattern : Instr → Word
  | .nop => 0x0000#16
  | .quant _ => 0x1000#16
  | .dbpos _ _ => 0x2000#16
  | .dbneg _ _ => 0x3000#16
  | .dbinit _ => 0x4000#16
  | .dbpeek _ _ => 0x5000#16

def Statement (i : Instr) : Prop := wellFormed i = true → encode i &&& mask i = pattern i

theorem nop : Statement .nop := by intro _; decide

theorem quant (w : Width) : Statement (.quant w) := by intro _; cases w <;> decide

theorem dbpos (raw : Bool) (n : Nat) : Statement (.dbpos raw n) := by
  intro h
  have all : ∀ j : Fin 256, encode (.dbpos raw j) &&& 0xFE00#16 = 0x2000#16 := by
    cases raw <;> decide +kernel
  exact all ⟨n, by simpa [wellFormed] using h⟩

theorem dbneg (raw : Bool) (n : Nat) : Statement (.dbneg raw n) := by
  intro h
  have all : ∀ j : Fin 256, encode (.dbneg raw j) &&& 0xFE00#16 = 0x3000#16 := by
    cases raw <;> decide +kernel
  exact all ⟨n, by simpa [wellFormed] using h⟩

theorem dbinit (n : Nat) : Statement (.dbinit n) := by
  intro h
  have all : ∀ j : Fin 256, encode (.dbinit j) &&& 0xFF00#16 = 0x4000#16 := by decide +kernel
  exact all ⟨n, by simpa [wellFormed] using h⟩

theorem dbpeek (d : Bool) (n : Nat) : Statement (.dbpeek d n) := by
  intro h
  have all : ∀ j : Fin 256, encode (.dbpeek d j) &&& 0xFE00#16 = 0x5000#16 := by
    cases d <;> decide +kernel
  exact all ⟨n, by simpa [wellFormed] using h⟩

end Sys2Proof.Laws.TableRow
end

