-- ==== Sys2Proof/Laws/Quantizer.lean ====
section
/-! SUPPORT. The quantizer's arithmetic and its selection loop: what `selectFrom` answers, once. -/

namespace Sys2Proof

/-- round_half_up is the floor of a/b + 1/2: twice the distance to the product is at most b (00_scope.md R13). -/
theorem roundHalfUp_bounds (a : Nat) {b : Nat} (hb : 0 < b) :
    2 * (roundHalfUp a b * b) ≤ 2 * a + b ∧ 2 * a < 2 * (roundHalfUp a b * b) + b := by
  have hpos : 0 < 2 * b := by omega
  have hle := Nat.div_mul_le_self (2 * a + b) (2 * b)
  have hlt := Nat.lt_div_mul_add (a := 2 * a + b) hpos
  have hmul : (2 * a + b) / (2 * b) * (2 * b) = 2 * (roundHalfUp a b * b) := by
    simp only [roundHalfUp]
    rw [Nat.mul_left_comm]
  omega

/-- The error of a rounded count is at most half the tick (41_quantizer.md R81). -/
theorem absDiff_roundHalfUp_le (a : Nat) {b : Nat} (hb : 0 < b) : absDiff a (roundHalfUp a b * b) ≤ b / 2 := by
  have h := roundHalfUp_bounds a hb
  simp only [absDiff]
  split <;> omega

/-- round_half_up of an exact multiple is the multiplier. -/
theorem roundHalfUp_mul (c : Nat) {t : Nat} (ht : 0 < t) : roundHalfUp (c * t) t = c := by
  simp only [roundHalfUp]
  rw [show 2 * (c * t) + t = t + c * (2 * t) by ring, Nat.add_mul_div_right _ _ (by omega),
    Nat.div_eq_of_lt (by omega), Nat.zero_add]

@[simp] theorem absDiff_self (a : Nat) : absDiff a a = 0 := by simp [absDiff]

namespace Machine

/-- What a candidate is (41_quantizer.md R73 to R76). -/
theorem candidate_eq_some {iq m k t : Nat} {x : Cand} :
    candidate iq m k t = some x ↔
      t ≤ iq ∧ 1 ≤ roundHalfUp iq t ∧ roundHalfUp iq t ≤ m ∧
      x = { k := k, c := roundHalfUp iq t, a := roundHalfUp iq t * t, e := absDiff iq (roundHalfUp iq t * t),
            isOver := decide (iq < roundHalfUp iq t * t) } := by
  simp only [candidate]
  split
  · split
    · constructor
      · intro h; exact ⟨‹_›, by omega, by omega, (Option.some.inj h).symm⟩
      · rintro ⟨-, -, -, rfl⟩; rfl
    · constructor
      · intro h; cases h
      · rintro ⟨-, h1, h2, -⟩; omega
  · constructor
    · intro h; cases h
    · rintro ⟨h1, -⟩; omega

theorem candidate_eq_none {iq m k t : Nat} :
    candidate iq m k t = none ↔ ¬(t ≤ iq ∧ 1 ≤ roundHalfUp iq t ∧ roundHalfUp iq t ≤ m) := by
  simp only [candidate]
  split <;> [split; skip] <;> simp <;> omega

/-- Everything the loop can answer: the first of the least-error candidates, the one it started from coming before
all (41_quantizer.md R77). -/
theorem selectFrom_eq_some {iq m : Nat} : ∀ {ts : List Nat} {k : Nat} {best : Option Cand} {b : Cand},
    selectFrom iq m k ts best = some b →
    (best = some b ∧ ∀ j x, j < ts.length → candidate iq m (k + j) (ts.getD j 0) = some x → b.e ≤ x.e) ∨
    (∃ j, j < ts.length ∧ candidate iq m (k + j) (ts.getD j 0) = some b ∧
      (∀ x, best = some x → b.e < x.e) ∧
      (∀ i x, i < ts.length → candidate iq m (k + i) (ts.getD i 0) = some x → b.e ≤ x.e) ∧
      (∀ i x, i < j → candidate iq m (k + i) (ts.getD i 0) = some x → b.e < x.e))
  | [], k, best, b, h => Or.inl ⟨h, fun j x hj => absurd hj (Nat.not_lt_zero j)⟩
  | t :: ts, k, best, b, h => by
    have shift : ∀ j, candidate iq m (k + (j + 1)) ((t :: ts).getD (j + 1) 0) =
        candidate iq m (k + 1 + j) (ts.getD j 0) := by
      intro j
      rw [show k + (j + 1) = k + 1 + j by omega, List.getD_cons_succ]
    have head : candidate iq m (k + 0) ((t :: ts).getD 0 0) = candidate iq m k t := rfl
    -- a candidate of the whole list is the head's or one of the rest
    have both : ∀ {P : Nat → Cand → Prop}, (∀ x, candidate iq m k t = some x → P 0 x) →
        (∀ j x, j < ts.length → candidate iq m (k + 1 + j) (ts.getD j 0) = some x → P (j + 1) x) →
        ∀ i x, i < (t :: ts).length → candidate iq m (k + i) ((t :: ts).getD i 0) = some x → P i x := by
      intro P h0 hs i x hi hx
      cases i with
      | zero => exact h0 x (head ▸ hx)
      | succ i => exact hs i x (by simpa using hi) (shift i ▸ hx)
    rw [selectFrom] at h
    cases hc : candidate iq m k t with
    | none =>
      rw [hc] at h
      rcases selectFrom_eq_some h with ⟨rfl, hle⟩ | ⟨j, hj, hb, hbest, hle, hlt⟩
      · exact Or.inl ⟨rfl, both (P := fun _ x => b.e ≤ x.e) (by simp [hc]) hle⟩
      · refine Or.inr ⟨j + 1, by simpa using hj, shift j ▸ hb, hbest,
          both (P := fun _ x => b.e ≤ x.e) (by simp [hc]) hle, ?_⟩
        intro i x hi hx
        cases i with
        | zero => rw [head, hc] at hx; cases hx
        | succ i => exact hlt i x (by omega) (shift i ▸ hx)
    | some y =>
      rw [hc] at h
      rcases selectFrom_eq_some h with ⟨hbest, hle⟩ | ⟨j, hj, hb, hbest, hle, hlt⟩
      · cases best with
        | none =>
          simp only [better, Option.some.injEq] at hbest
          subst hbest
          refine Or.inr ⟨0, by simp, head ▸ hc, by simp,
            both (P := fun _ x => y.e ≤ x.e) (by simp [hc]) hle, by simp⟩
        | some z =>
          simp only [better] at hbest
          split at hbest
          · simp only [Option.some.injEq] at hbest
            subst hbest
            refine Or.inr ⟨0, by simp, head ▸ hc, ?_,
              both (P := fun _ x => y.e ≤ x.e) (by simp [hc]) hle, by simp⟩
            rintro x ⟨⟩
            assumption
          · simp only [Option.some.injEq] at hbest
            subst hbest
            refine Or.inl ⟨rfl, both (P := fun _ x => z.e ≤ x.e) ?_ hle⟩
            rintro x hx
            rw [hc] at hx
            cases hx
            omega
      · have hy : b.e < y.e ∧ ∀ x, best = some x → b.e < x.e := by
          cases best with
          | none => exact ⟨hbest y rfl, by simp⟩
          | some z =>
            simp only [better] at hbest
            split at hbest
            · have := hbest y rfl
              refine ⟨this, ?_⟩
              rintro x ⟨⟩
              omega
            · have := hbest z rfl
              refine ⟨by omega, ?_⟩
              rintro x ⟨⟩
              exact this
        refine Or.inr ⟨j + 1, by simpa using hj, shift j ▸ hb, hy.2,
          both (P := fun _ x => b.e ≤ x.e) ?_ hle, ?_⟩
        · intro x hx
          rw [hc] at hx
          cases hx
          omega
        · intro i x hi hx
          cases i with
          | zero =>
            rw [head, hc] at hx
            cases hx
            exact hy.1
          | succ i => exact hlt i x (by omega) (shift i ▸ hx)

/-- The loop answers none exactly when it starts from none and no clock is valid (41_quantizer.md R78). -/
theorem selectFrom_eq_none {iq m : Nat} : ∀ {ts : List Nat} {k : Nat} {best : Option Cand},
    selectFrom iq m k ts best = none ↔
      best = none ∧ ∀ j, j < ts.length → candidate iq m (k + j) (ts.getD j 0) = none
  | [], k, best => by simp [selectFrom]
  | t :: ts, k, best => by
    have cons : (∀ j, j < (t :: ts).length → candidate iq m (k + j) ((t :: ts).getD j 0) = none) ↔
        candidate iq m k t = none ∧ ∀ j, j < ts.length → candidate iq m (k + 1 + j) (ts.getD j 0) = none := by
      constructor
      · intro h
        refine ⟨by simpa using h 0 (by simp), fun j hj => ?_⟩
        have := h (j + 1) (by simpa using hj)
        rwa [show k + (j + 1) = k + 1 + j by omega, List.getD_cons_succ] at this
      · rintro ⟨h0, hs⟩ j hj
        cases j with
        | zero => simpa using h0
        | succ j =>
          rw [show k + (j + 1) = k + 1 + j by omega, List.getD_cons_succ]
          exact hs j (by simpa using hj)
    rw [cons, selectFrom]
    cases hc : candidate iq m k t with
    | none => simp [selectFrom_eq_none]
    | some y =>
      simp only [selectFrom_eq_none]
      cases best with
      | none => simp [better]
      | some z => by_cases hz : y.e < z.e <;> simp [better, hz]

/-! The unit in the spec's terms (Safety.lean): what a candidate is, what the pure function and the command answer. -/

/-- Every tick of a legal table, by index (00_scope.md R6). -/
theorem tickOf_range {c : Config} (h : c.legal = true) {k : Nat} (hk : k < c.nclk) :
    1 ≤ tickOf c k ∧ tickOf c k < 2 ^ 32 := by
  have hk' : k < c.tick.length := hk
  have hm : tickOf c k ∈ c.tick := by
    simp only [tickOf, List.getD_eq_getElem _ _ hk']
    exact List.getElem_mem hk'
  have := Config.tick_range_of_legal h hm
  omega

/-- The table is ordered, by index (00_scope.md R7). -/
theorem tickOf_lt {c : Config} (h : c.legal = true) {j k : Nat} (hjk : j < k) (hk : k < c.nclk) :
    tickOf c j < tickOf c k := by
  have hk' : k < c.tick.length := hk
  have hj' : j < c.tick.length := by omega
  simp only [tickOf, List.getD_eq_getElem _ _ hk', List.getD_eq_getElem _ _ hj']
  exact List.pairwise_iff_getElem.mp (Config.tick_pairwise_of_legal h) j k hj' hk' hjk

theorem tickOf_le {c : Config} (h : c.legal = true) {j k : Nat} (hjk : j ≤ k) (hk : k < c.nclk) :
    tickOf c j ≤ tickOf c k := by
  rcases Nat.lt_or_eq_of_le hjk with hlt | rfl
  · exact (tickOf_lt h hlt hk).le
  · exact le_refl _

theorem headD_eq_tickOf (c : Config) : c.tick.headD 0 = tickOf c 0 := by
  unfold tickOf
  cases c.tick <;> rfl

theorem absDiff_eq (x y : Nat) : absDiff x y = (x - y) + (y - x) := by
  simp only [absDiff]
  split <;> omega

/-- A candidate is a valid clock with its count, interval, error and direction (41_quantizer.md R76). -/
theorem candidate_iff_validClock {c : Config} {iq m k : Nat} {x : Cand} (hk : k < c.nclk) :
    candidate iq m k (tickOf c k) = some x ↔
      ValidClock c iq m k ∧
      x = { k := k, c := countOf c iq k, a := intervalOf c iq k, e := errorOf c iq k,
            isOver := decide (iq < intervalOf c iq k) } := by
  rw [candidate_eq_some]
  simp only [absDiff_eq, roundHalfUp]
  constructor
  · rintro ⟨h1, h2, h3, rfl⟩
    exact ⟨⟨hk, h1, h2, h3⟩, rfl⟩
  · rintro ⟨⟨-, h1, h2, h3⟩, rfl⟩
    exact ⟨h1, h2, h3, rfl⟩

/-- The request in quanta (41_quantizer.md R72). -/
theorem intv_mul_qpu (s : State) : s.intv * s.cfg.qpu = requestOf s := by
  simp [State.intv, words2, requestOf]

/-- What the pure function finds is the selected clock (41_quantizer.md R77). -/
theorem quantize_found {c : Config} {i : Nat} {w : Width} {b : Cand} (h : quantize c i w = .found b) :
    tickOf c 0 ≤ i * c.qpu ∧ SelectedClock c (i * c.qpu) (2 ^ w.bits - 1) b.k ∧
    b = { k := b.k, c := countOf c (i * c.qpu) b.k, a := intervalOf c (i * c.qpu) b.k,
          e := errorOf c (i * c.qpu) b.k, isOver := decide (i * c.qpu < intervalOf c (i * c.qpu) b.k) } := by
  simp only [quantize, headD_eq_tickOf] at h
  split at h
  · cases h
  split at h
  · cases h
  cases h
  rename_i hlt hsel
  refine ⟨by omega, ?_⟩
  rcases selectFrom_eq_some hsel with ⟨h, -⟩ | ⟨j, hj, hb, -, hle, hlt'⟩
  · cases h
  · simp only [Nat.zero_add] at hb hle hlt'
    have hb' := (candidate_iff_validClock (c := c) hj).mp hb
    have hbk : b.k = j := by rw [hb'.2]
    have hbe : b.e = errorOf c (i * c.qpu) j := by rw [hb'.2]
    rw [hbk]
    refine ⟨⟨hb'.1, fun q hq => ?_⟩, hb'.2⟩
    have hx := (candidate_iff_validClock (c := c) hq.1).mpr ⟨hq, rfl⟩
    have h1 := hle q _ hq.1 hx
    rw [hbe] at h1
    refine ⟨h1, fun hqj => ?_⟩
    have h2 := hlt' q _ hqj hx
    rw [hbe] at h2
    exact h2

/-- Why the pure function fails (41_quantizer.md R78). -/
theorem quantize_failed {c : Config} {i : Nat} {w : Width} {e : Code} (h : quantize c i w = .failed e) :
    (i * c.qpu < tickOf c 0 ∧ e = .subTick) ∨
    (tickOf c 0 ≤ i * c.qpu ∧ e = .outOfRange ∧ ¬ ∃ k, ValidClock c (i * c.qpu) (2 ^ w.bits - 1) k) := by
  simp only [quantize, headD_eq_tickOf] at h
  split at h
  · cases h
    exact Or.inl ⟨by omega, rfl⟩
  split at h
  · cases h
    rename_i hsel
    refine Or.inr ⟨by omega, rfl, ?_⟩
    rintro ⟨k, hk⟩
    have hnone := (selectFrom_eq_none.mp hsel).2 k hk.1
    simp only [Nat.zero_add] at hnone
    have hnone' : candidate (i * c.qpu) (2 ^ w.bits - 1) k (tickOf c k) = none := hnone
    rw [(candidate_iff_validClock (c := c) hk.1).mpr ⟨hk, rfl⟩] at hnone'
    cases hnone'
  · cases h

/-- There is at most one selected clock (41_quantizer.md R77). -/
theorem selectedClock_unique {c : Config} {iq m j k : Nat} (h1 : SelectedClock c iq m j)
    (h2 : SelectedClock c iq m k) : j = k := by
  have a := h1.2 k h2.1
  have b := h2.2 j h1.1
  rcases Nat.lt_trichotomy j k with h | h | h
  · have := b.2 h
    omega
  · exact h
  · have := a.2 h
    omega

/-- Everything QUANT can do: refuse as SUBTICK, refuse as OUT_OF_RANGE, or write the selected clock. -/
theorem execQuant_cases (w : Width) (s : State) :
    (requestOf s < tickOf s.cfg 0 ∧ execQuant w s = .next (raise .subTick s)) ∨
    (tickOf s.cfg 0 ≤ requestOf s ∧ (¬ ∃ k, ValidClock s.cfg (requestOf s) (2 ^ w.bits - 1) k) ∧
      execQuant w s = .next (raise .outOfRange s)) ∨
    (∃ b, tickOf s.cfg 0 ≤ requestOf s ∧ SelectedClock s.cfg (requestOf s) (2 ^ w.bits - 1) b.k ∧
      b = { k := b.k, c := countOf s.cfg (requestOf s) b.k, a := intervalOf s.cfg (requestOf s) b.k,
            e := errorOf s.cfg (requestOf s) b.k,
            isOver := decide (requestOf s < intervalOf s.cfg (requestOf s) b.k) } ∧
      execQuant w s = .next (complete (writeQuant b s))) := by
  have e := intv_mul_qpu s
  cases hq : quantize s.cfg s.intv w with
  | failed c =>
    have h := quantize_failed hq
    rw [e] at h
    rcases h with ⟨h, rfl⟩ | ⟨h, rfl, h2⟩
    · exact Or.inl ⟨h, by simp [execQuant, hq]⟩
    · exact Or.inr (Or.inl ⟨h, h2, by simp [execQuant, hq]⟩)
  | found b =>
    have h := quantize_found hq
    rw [e] at h
    exact Or.inr (Or.inr ⟨b, h.1, h.2.1, h.2.2, by simp [execQuant, hq]⟩)

end Machine

end Sys2Proof
end

