-- ==== Sys2Proof/Laws/Step.lean ====
section
/-! SUPPORT. Everything a command, an event and a step can do, said once: the inversion lemmas that the invariants
cite. -/

namespace Sys2Proof.Machine

/-- Everything a command can do: report a code and nothing else, or complete as its own rule says. -/
theorem exec_cases {i : Instr} {s t : State} (h : exec i s = .next t) :
    (∃ c, t = raise c s) ∨
    (∃ w b, i = .quant w ∧ quantize s.cfg s.intv w = .found b ∧ t = complete (writeQuant b s)) ∨
    (∃ d raw n p, i = (if d then .dbpos raw n else .dbneg raw n) ∧ n < s.cfg.nDb ∧ s.threshold ≠ 0 ∧
      pollUnit d raw s.threshold (s.cnt n).toNat (s.settled n) = p ∧
      t = complete (report n d (BitVec.ofNat 16 p.cnt) p.settled p.evt
        (s.setUnit n (BitVec.ofNat 16 p.cnt) p.settled))) ∨
    (∃ n, i = .dbinit n ∧ n < s.cfg.nDb ∧ t = complete (s.setUnit n 0x0000#16 false)) ∨
    (∃ d n, i = .dbpeek d n ∧ n < s.cfg.nDb ∧ t = complete (report n d (s.cnt n) (s.settled n) false s)) := by
  cases i with
  | nop =>
    simp only [exec, execNop, Host.Outcome.next.injEq] at h
    exact Or.inl ⟨.ok, h.symm⟩
  | quant w =>
    simp only [exec, execQuant] at h
    split at h <;> simp only [Host.Outcome.next.injEq] at h
    · exact Or.inl ⟨_, h.symm⟩
    · exact Or.inr (Or.inl ⟨w, _, rfl, ‹_›, h.symm⟩)
  | dbpos raw n =>
    simp only [exec, execDbpos, Host.Outcome.next.injEq] at h
    rcases poll_cases true raw n s with ⟨-, hp⟩ | ⟨-, -, hp⟩ | ⟨hn, ht, p, hu, hp⟩
    · exact Or.inl ⟨_, by rw [← h, hp]⟩
    · exact Or.inl ⟨_, by rw [← h, hp]⟩
    · exact Or.inr (Or.inr (Or.inl ⟨true, raw, n, p, rfl, hn, ht, hu, by rw [← h, hp]⟩))
  | dbneg raw n =>
    simp only [exec, execDbneg, Host.Outcome.next.injEq] at h
    rcases poll_cases false raw n s with ⟨-, hp⟩ | ⟨-, -, hp⟩ | ⟨hn, ht, p, hu, hp⟩
    · exact Or.inl ⟨_, by rw [← h, hp]⟩
    · exact Or.inl ⟨_, by rw [← h, hp]⟩
    · exact Or.inr (Or.inr (Or.inl ⟨false, raw, n, p, rfl, hn, ht, hu, by rw [← h, hp]⟩))
  | dbinit n =>
    simp only [exec, execDbinit] at h
    split at h <;> simp only [Host.Outcome.next.injEq] at h
    · exact Or.inl ⟨_, h.symm⟩
    · exact Or.inr (Or.inr (Or.inr (Or.inl ⟨n, rfl, by omega, h.symm⟩)))
  | dbpeek d n =>
    simp only [exec, execDbpeek] at h
    split at h <;> simp only [Host.Outcome.next.injEq] at h
    · exact Or.inl ⟨_, h.symm⟩
    · exact Or.inr (Or.inr (Or.inr (Or.inr ⟨d, n, rfl, by omega, h.symm⟩)))

/-- A command changes neither the configuration nor the arguments nor the stream (40_command_cycle.md R64). -/
theorem exec_keeps {i : Instr} {s t : State} (h : exec i s = .next t) :
    t.cfg = s.cfg ∧ t.cmd = s.cmd ∧ t.intvLo = s.intvLo ∧ t.intvHi = s.intvHi ∧ t.thresh = s.thresh ∧
    t.bus = s.bus ∧ t.lastRead = s.lastRead ∧ t.freeCount = s.freeCount := by
  rcases exec_cases h with ⟨c, rfl⟩ | ⟨w, b, -, -, rfl⟩ | ⟨d, raw, n, p, -, -, -, -, rfl⟩ | ⟨n, -, -, rfl⟩ |
    ⟨d, n, -, -, rfl⟩ <;> simp

/-- Everything a command cycle can do (40_command_cycle.md R63). -/
theorem issue_cases {v : Word} {s t : State} (h : issue v s = .next t) :
    (∃ i, decode v = .instr i ∧ exec i (s.setReg .cmd v) = .next t) ∨
    (∃ why, decode v = .illegal why ∧ t = raise .illegal (s.setReg .cmd v)) := by
  simp only [issue] at h
  split at h
  · exact Or.inl ⟨_, ‹_›, h⟩
  · simp only [execIllegal, Host.Outcome.next.injEq] at h
    exact Or.inr ⟨_, ‹_›, h.symm⟩

/-- Everything an event can do. -/
theorem perform_cases {e : HostEvent} {s t : State} (h : perform e s = .next t) :
    (∃ d, t = { s with lastRead := some d }) ∨
    (∃ o b, t = s.storeByte o b) ∨
    (∃ o v, (Reg.ofOffset o).access ≠ .cmd ∧ t = s.storeWord o v) ∨
    (∃ a o v, e = .writeWord a v ∧ s.cfg.locate a = some o ∧ o % 2 = 0 ∧ Reg.ofOffset o = .cmd ∧
      issue v s = .next t) ∨
    (e = .reset ∧ t = hostReset s) ∨
    (e = .powerCycle ∧ t = hostPowerCycle s) := by
  cases e with
  | readByte a =>
    simp only [perform, hostReadByte] at h
    split at h <;> simp at h
    exact Or.inl ⟨_, h.symm⟩
  | readWord a =>
    simp only [perform, hostReadWord] at h
    split at h <;> [simp at h; split at h] <;> simp at h
    exact Or.inl ⟨_, h.symm⟩
  | writeByte a b =>
    simp only [perform, hostWriteByte] at h
    split at h <;> simp at h
    exact Or.inr (Or.inl ⟨_, b, h.symm⟩)
  | writeWord a v =>
    simp only [perform, hostWriteWord] at h
    split at h
    · cases h
    · split at h
      · split at h
        · exact Or.inr (Or.inr (Or.inr (Or.inl ⟨a, _, v, rfl, ‹_›, ‹_›, access_eq_cmd.mp ‹_›, h⟩)))
        · simp only [Host.Outcome.next.injEq] at h
          exact Or.inr (Or.inr (Or.inl ⟨_, v, ‹_›, h.symm⟩))
      · cases h
  | reset =>
    simp only [perform, Host.Outcome.next.injEq] at h
    exact Or.inr (Or.inr (Or.inr (Or.inr (Or.inl ⟨rfl, h.symm⟩))))
  | powerCycle =>
    simp only [perform, Host.Outcome.next.injEq] at h
    exact Or.inr (Or.inr (Or.inr (Or.inr (Or.inr ⟨rfl, h.symm⟩))))

/-- Everything a step can do. -/
theorem step_cases {s t : State} (h : step s = .next t) :
    s.cfg.legal = true ∧
    ((s.bus = [] ∧ t = s) ∨ (∃ e rest, s.bus = e :: rest ∧ perform e { s with bus := rest } = .next t)) := by
  simp only [step] at h
  split at h
  · refine ⟨‹_›, ?_⟩
    split at h
    · simp only [Host.Outcome.next.injEq] at h
      exact Or.inl ⟨‹_›, h.symm⟩
    · exact Or.inr ⟨_, _, ‹_›, h⟩
  · cases h

/-- A step of a legal machine performs its oldest event. -/
theorem step_cons {s : State} {e : HostEvent} {rest : List HostEvent} (hl : s.cfg.legal = true)
    (hb : s.bus = e :: rest) : step s = perform e { s with bus := rest } := by
  simp [step, hl, hb]

/-- A word write at BASE is a command cycle (40_command_cycle.md R63). -/
theorem perform_cmdWrite (s : State) (v : Word) : perform (cmdWrite s.cfg v) s = issue v s := by
  have h : s.cfg.locate s.cfg.base = some 0 := by
    simpa using locate_base_add (c := s.cfg) (o := 0) (by omega)
  simp [perform, hostWriteWord, h, Reg.ofOffset, Reg.access]

theorem step_cmdWrite {s : State} {v : Word} {rest : List HostEvent} (hl : s.cfg.legal = true)
    (hb : s.bus = cmdWrite s.cfg v :: rest) : step s = issue v { s with bus := rest } := by
  rw [step_cons hl hb]
  exact perform_cmdWrite { s with bus := rest } v

/-- The cycle of a word that decodes to i runs i with CMD holding the word. -/
theorem issue_instr {v : Word} {i : Instr} (h : decode v = .instr i) (s : State) :
    issue v s = exec i { s with cmd := v } := by
  simp [issue, h, State.setReg]

/-- The cycle of a word that is no command raises ILLEGAL. -/
theorem issue_illegal {v : Word} {why : Illegal} (h : decode v = .illegal why) (s : State) :
    issue v s = .next { s with cmd := v, status := 0x0003#16 } := by
  simp [issue, h, execIllegal, raise, State.setReg]

/-- Storing from the host changes no field but the RW registers (20_memory.md R42, R44). -/
theorem storeWord_cases (s : State) (o : Nat) (v : Word) :
    s.storeWord o v = s ∨ ((Reg.ofOffset o).access = .rw ∧ s.storeWord o v = s.setReg (Reg.ofOffset o) v) := by
  simp only [State.storeWord]
  split
  · exact Or.inr ⟨‹_›, rfl⟩
  · exact Or.inl rfl
  · exact Or.inl rfl

theorem storeByte_cases (s : State) (o : Nat) (b : Byte) :
    s.storeByte o b = s ∨ ((Reg.ofOffset o).access = .rw ∧
      ∃ v, v = withByte o b (s.getReg (Reg.ofOffset o)) ∧ s.storeByte o b = s.setReg (Reg.ofOffset o) v) := by
  simp only [State.storeByte]
  split
  · exact Or.inr ⟨‹_›, _, rfl, rfl⟩
  · exact Or.inl rfl
  · exact Or.inl rfl

/-- Writing an RW register leaves the result registers, the units and the model's own fields as they were. -/
theorem setReg_rw_keeps {r : Reg} (h : r.access = .rw) (s : State) (v : Word) :
    (s.setReg r v).cmd = s.cmd ∧ (s.setReg r v).status = s.status ∧ (s.setReg r v).qsel = s.qsel ∧
    (s.setReg r v).reload = s.reload ∧ (s.setReg r v).ach0 = s.ach0 ∧ (s.setReg r v).ach1 = s.ach1 ∧
    (s.setReg r v).ach2 = s.ach2 ∧ (s.setReg r v).errm0 = s.errm0 ∧ (s.setReg r v).errm1 = s.errm1 ∧
    (s.setReg r v).dbcnt = s.dbcnt ∧ (s.setReg r v).dbflags = s.dbflags := by
  cases r <;> first | cases h; done | simp [State.setReg]

/-- exec of a poll is POLL. -/
theorem exec_pollCmd (d raw : Bool) (n : Nat) (s : State) : exec (pollCmd d raw n) s = .next (poll d raw n s) := by
  cases d <;> rfl

/-- Every command answers a next state: the block has no trap and no command stops it (60_exceptions.md R106). -/
theorem exec_total (i : Instr) (s : State) : ∃ t, exec i s = .next t := by
  cases i with
  | nop => exact ⟨_, rfl⟩
  | quant w => simp only [exec, execQuant]; split <;> exact ⟨_, rfl⟩
  | dbpos raw n => exact ⟨_, rfl⟩
  | dbneg raw n => exact ⟨_, rfl⟩
  | dbinit n => simp only [exec, execDbinit]; split <;> exact ⟨_, rfl⟩
  | dbpeek d n => simp only [exec, execDbpeek]; split <;> exact ⟨_, rfl⟩

/-- A command cycle answers a next state with CMD holding the word. -/
theorem issue_total (v : Word) (s : State) :
    ∃ t, issue v s = .next t ∧ t.cmd = v ∧ t.bus = s.bus ∧ t.cfg = s.cfg := by
  cases hd : decode v with
  | illegal why => exact ⟨_, issue_illegal hd s, rfl, rfl, rfl⟩
  | instr i =>
    rw [issue_instr hd]
    obtain ⟨t, ht⟩ := exec_total i { s with cmd := v }
    have k := exec_keeps ht
    exact ⟨t, ht, k.2.1, k.2.2.2.2.2.1, k.1⟩

/-- No event changes the configuration (10_state.md R32). -/
theorem perform_cfg {e : HostEvent} {s t : State} (h : perform e s = .next t) : t.cfg = s.cfg := by
  rcases perform_cases h with ⟨d, rfl⟩ | ⟨o, b, rfl⟩ | ⟨o, v, -, rfl⟩ | ⟨a, o, v, rfl, -, -, -, hi⟩ | ⟨rfl, rfl⟩ |
    ⟨rfl, rfl⟩
  · rfl
  · rcases storeByte_cases s o b with hs | ⟨-, v, -, hs⟩ <;> simp [hs]
  · rcases storeWord_cases s o v with hs | ⟨-, hs⟩ <;> simp [hs]
  · rcases issue_cases hi with ⟨i, -, he⟩ | ⟨why, -, rfl⟩
    · rw [(exec_keeps he).1]; simp
    · simp
  · rfl
  · rfl

/-- The events the block answers have a step, which leaves the later events as they were. -/
theorem perform_total {e : HostEvent} {s : State} (h : answered s.cfg e = true) :
    ∃ t, perform e s = .next t ∧ t.bus = s.bus := by
  cases e with
  | readByte a =>
    obtain ⟨o, h⟩ := Option.isSome_iff_exists.mp h
    exact ⟨{ s with lastRead := some (.byte (s.windowByte o)) }, by simp [perform, hostReadByte, h], rfl⟩
  | readWord a =>
    simp only [answered, Option.any_eq_true, beq_iff_eq] at h
    obtain ⟨o, h, h2⟩ := h
    exact ⟨{ s with lastRead := some (.word (s.windowWord o)) }, by simp [perform, hostReadWord, h, h2], rfl⟩
  | writeByte a b =>
    obtain ⟨o, h⟩ := Option.isSome_iff_exists.mp h
    refine ⟨s.storeByte o b, by simp [perform, hostWriteByte, h], ?_⟩
    rcases storeByte_cases s o b with hs | ⟨-, v, -, hs⟩ <;> simp [hs]
  | writeWord a v =>
    simp only [answered, Option.any_eq_true, beq_iff_eq] at h
    obtain ⟨o, h, h2⟩ := h
    simp only [perform, hostWriteWord, h, h2, if_true]
    split
    · obtain ⟨t, h1, -, h2, -⟩ := issue_total v s
      exact ⟨t, h1, h2⟩
    · refine ⟨_, rfl, ?_⟩
      rcases storeWord_cases s o v with hs | ⟨-, hs⟩ <;> simp [hs]
  | reset => exact ⟨_, rfl, rfl⟩
  | powerCycle => exact ⟨_, rfl, rfl⟩

/-- The file has one unit for each free pair (93_implementation_defined.md U7). -/
@[simp] theorem length_freeUnits : ∀ i k, (freeUnits i k).length = k
  | _, 0 => rfl
  | i, k + 1 => by simp [freeUnits, length_freeUnits]

end Sys2Proof.Machine
end

