-- ==== Sys2Proof/Tests/Slice0.lean ====
section
/-! SUPPORT. The model's own tests: ill-formed terms, words written out from 30_encoding.md R55, vectors of
95_test_vectors.md (each names its vector), and for each statement with hypotheses a witness that meets them. -/

namespace Sys2Proof.Tests

open Sys2Proof Sys2Proof.Machine

/-! ## Well-formedness: one ill-formed term for each check (30_encoding.md R61: n is 0..255) -/

theorem test_illformed_dbpos : wellFormed (.dbpos true 256) = false := by decide
theorem test_illformed_dbneg : wellFormed (.dbneg false 256) = false := by decide
theorem test_illformed_dbinit : wellFormed (.dbinit 256) = false := by decide
theorem test_illformed_dbpeek : wellFormed (.dbpeek true 300) = false := by decide
theorem test_assembler_refuses_256 : issueEvents Config.reference (.dbinit 256) = none := by decide

/-! ## Decoding: words bit by bit from the patterns of 30_encoding.md R55 -/

-- 0000 0000 0000 0000
theorem test_decode_nop : decode 0b0000000000000000#16 = .instr .nop := by decide
-- 0001 0000 0000 000w
theorem test_decode_quant :
    decode 0b0001000000000000#16 = .instr (.quant .w8) ∧ decode 0b0001000000000001#16 = .instr (.quant .w16) := by
  decide
-- 0010 000r iiii iiii, r = 1, i = 5
theorem test_decode_dbpos : decode 0b0010000100000101#16 = .instr (.dbpos true 5) := by decide
-- 0011 000r iiii iiii, r = 0, i = 0x81
theorem test_decode_dbneg : decode 0b0011000010000001#16 = .instr (.dbneg false 129) := by decide
-- 0100 0000 iiii iiii, i = 255
theorem test_decode_dbinit : decode 0b0100000011111111#16 = .instr (.dbinit 255) := by decide
-- 0101 000d iiii iiii, d = 1, i = 2
theorem test_decode_dbpeek : decode 0b0101000100000010#16 = .instr (.dbpeek true 2) := by decide
-- the words of V-N1
theorem test_decode_illegal :
    [0x2A00#16, 0x2A07#16, 0x4100#16, 0x5400#16, 0x0001#16, 0x1002#16, 0x2200#16, 0x3E00#16].all
      (fun v => decode v == .illegal .reservedBits) = true ∧
    [0x6000#16, 0xF123#16].all (fun v => decode v == .illegal .reservedOpcode) = true := by decide

/-! ## One command each -/

/-- The state after reset with a threshold, unit 0 at counter c and flag f, and a stream. -/
def dbState (t c : Word) (f : Bool) (bus : List HostEvent) : State :=
  { State.reset with
    thresh := t, units := [{ cnt := c, settled := f }, { cnt := 0, settled := false }], bus := bus }

/-- The state after reset of a configuration, with INTV = i. -/
def quState (c : Config) (i : Nat) (bus : List HostEvent) : State :=
  { State.resetWith c with intvLo := wordOf 0 i, intvHi := wordOf 1 i, bus := bus }

/-- STATUS, QSEL, RELOAD, ACH and ERRM of an outcome. -/
def quRow (o : Host.Outcome State Fault Refusal) : Option (Word × Word × Word × Nat × Nat) :=
  match o with
  | .next t => some (t.status, t.qsel, t.reload, t.ach, t.errm)
  | .fault _ => none
  | .refused _ => none

/-- STATUS, DBCNT, DBFLAGS and the units of an outcome. -/
def dbRow (o : Host.Outcome State Fault Refusal) : Option (Word × Word × Word × List Debounce) :=
  match o with
  | .next t => some (t.status, t.dbcnt, t.dbflags, t.units)
  | .fault _ => none
  | .refused _ => none

/-- The state an outcome goes on in. -/
def nextOf (o : Host.Outcome State Fault Refusal) : Option State :=
  match o with
  | .next t => some t
  | .fault _ => none
  | .refused _ => none

/-- What one step returned to the host. -/
def readRow (o : Host.Outcome State Fault Refusal) : Option ReadData :=
  match o with
  | .next t => t.lastRead
  | .fault _ => none
  | .refused _ => none

-- V-Q2, V-Q8, V-Q9, V-Q10, V-Q13, V-Q14, V-Q16, V-Q29
theorem test_quant_reference :
    [quRow (exec (.quant .w8) (quState .reference 50000 [])),
     quRow (exec (.quant .w16) (quState .reference 8388480 [])),
     quRow (exec (.quant .w16) (quState .reference 8388543 [])),
     quRow (exec (.quant .w16) (quState .reference 8388544 [])),
     quRow (exec (.quant .w8) (quState .reference 1022 [])),
     quRow (exec (.quant .w8) (quState .reference 1023 [])),
     quRow (exec (.quant .w16) (quState .reference 131071 [])),
     quRow (exec (.quant .w8) (quState .reference 8000 []))] =
    [some (0x0011, 0, 0, 0, 0),
     some (0x0000, 0x0005, 0xFFFF, 8388480, 0),
     some (0x0000, 0x0005, 0xFFFF, 8388480, 63),
     some (0x0011, 0, 0, 0, 0),
     some (0x0000, 0x0103, 0x0080, 1024, 2),
     some (0x0000, 0x0103, 0x0080, 1024, 1),
     some (0x0000, 0x0102, 0x8000, 131072, 1),
     some (0x0000, 0x0105, 0x003F, 8064, 64)] := by decide

-- V-QA1, V-QA6, V-QA7, V-QB1, V-QB4, V-QB5, V-QB7, V-QB9
theorem test_quant_other_configurations :
    [quRow (exec (.quant .w16) (quState .vectorsA 1000 [])),
     quRow (exec (.quant .w16) (quState .vectorsA 524283 [])),
     quRow (exec (.quant .w16) (quState .vectorsA 524284 [])),
     quRow (exec (.quant .w8) (quState .vectorsB 2 [])),
     quRow (exec (.quant .w8) (quState .vectorsB 5 [])),
     quRow (exec (.quant .w8) (quState .vectorsB 10 [])),
     quRow (exec (.quant .w8) (quState .vectorsB 2549 [])),
     quRow (exec (.quant .w8) (quState .vectorsB 2555 []))] =
    [some (0x0000, 0x0000, 0x07D0, 4000, 0),
     some (0x0000, 0x0002, 0xFFFF, 2097120, 12),
     some (0x0011, 0, 0, 0, 0),
     some (0x0012, 0, 0, 0, 0),
     some (0x0000, 0x0100, 0x0002, 6, 1),
     some (0x0000, 0x0001, 0x0001, 10, 0),
     some (0x0000, 0x0101, 0x00FF, 2550, 1),
     some (0x0011, 0, 0, 0, 0)] := by decide

-- V-D9 step 2 (the second event of a run), V-D8 step 1 (hold above a lowered threshold), V-D15 (no wrap)
theorem test_dbpos_thresholds :
    [dbRow (exec (.dbpos true 0) (dbState 4 3 true [])),
     dbRow (exec (.dbpos true 0) (dbState 3 5 false [])),
     dbRow (exec (.dbpos true 0) (dbState 65535 65534 false [])),
     dbRow (exec (.dbpos true 0) (dbState 65535 65535 true []))] =
    [some (0x0000, 4, 0x000F, [⟨4, true⟩, ⟨0, false⟩]),
     some (0x0000, 5, 0x0008, [⟨5, false⟩, ⟨0, false⟩]),
     some (0x0000, 65535, 0x000F, [⟨65535, true⟩, ⟨0, false⟩]),
     some (0x0000, 65535, 0x000E, [⟨65535, true⟩, ⟨0, false⟩])] := by decide

-- V-D12 poll 5 (contrary), V-D7 (BAD_INST before BAD_THRESH), V-D6 (BAD_THRESH)
theorem test_dbpos_contrary_and_refused :
    [dbRow (exec (.dbpos false 0) (dbState 3 3 true [])),
     dbRow (exec (.dbpos true 7) (dbState 0 3 true [])),
     dbRow (exec (.dbpos true 0) (dbState 0 0 false []))] =
    [some (0x0000, 0, 0x0008, [⟨0, false⟩, ⟨0, false⟩]),
     some (0x0004, 0, 0, [⟨3, true⟩, ⟨0, false⟩]),
     some (0x0005, 0, 0, [⟨0, false⟩, ⟨0, false⟩])] := by decide

-- V-D5, its first two polls on unit 1
theorem test_dbneg_settles :
    [dbRow (exec (.dbneg false 1) (dbState 2 0 false [])),
     dbRow (exec (.dbneg false 1) { dbState 2 0 false [] with units := [⟨0, false⟩, ⟨1, false⟩] })] =
    [some (0x0000, 1, 0x0104, [⟨0, false⟩, ⟨1, false⟩]),
     some (0x0000, 2, 0x0103, [⟨0, false⟩, ⟨2, true⟩])] := by decide

-- V-D10 rows 2 and 4: a DBNEG counts on from a DBPOS, and a contrary sample clears
theorem test_dbneg_mixed :
    [dbRow (exec (.dbneg false 0) (dbState 5 1 false [])),
     dbRow (exec (.dbneg true 0) (dbState 5 2 false []))] =
    [some (0x0000, 2, 0x0004, [⟨2, false⟩, ⟨0, false⟩]),
     some (0x0000, 0, 0x0004, [⟨0, false⟩, ⟨0, false⟩])] := by decide

-- 42_debounce.md R97's example, and V-D7
theorem test_dbinit :
    [dbRow (exec (.dbinit 0) (dbState 0 5 true [])),
     dbRow (exec (.dbinit 2) (dbState 0 5 true []))] =
    [some (0x0000, 0, 0, [⟨0, false⟩, ⟨0, false⟩]),
     some (0x0004, 0, 0, [⟨5, true⟩, ⟨0, false⟩])] := by decide

-- V-D11
theorem test_dbpeek :
    [dbRow (exec (.dbpeek true 0) (dbState 3 3 true [])),
     dbRow (exec (.dbpeek false 0) (dbState 3 3 true [])),
     dbRow (exec (.dbpeek true 1) (dbState 3 3 true [])),
     dbRow (exec (.dbpeek false 1) (dbState 3 3 true []))] =
    [some (0x0000, 3, 0x000E, [⟨3, true⟩, ⟨0, false⟩]),
     some (0x0000, 3, 0x0002, [⟨3, true⟩, ⟨0, false⟩]),
     some (0x0000, 0, 0x0108, [⟨3, true⟩, ⟨0, false⟩]),
     some (0x0000, 0, 0x0104, [⟨3, true⟩, ⟨0, false⟩])] := by decide

-- V-N2, and V-N1 through the step: a word of each kind as the first event after reset
theorem test_nop_and_illegal_through_the_step :
    [nextOf (step { ({ State.reset with status := 0x0011 } : State).withFetchWord 16 0x0000 with cmd := 0x1000 }),
     nextOf (step (State.reset.withFetchWord 16 0x1002)),
     nextOf (step (State.reset.withFetchWord 16 0x2A07))] =
    [some State.reset,
     some { State.reset with cmd := 0x1002, status := 0x0003 },
     some { State.reset with cmd := 0x2A07, status := 0x0003 }] := by decide

/-! ## The host's accesses -/

-- V-M2, V-M3, V-M4, V-M6
theorem test_host_writes :
    [nextOf (step (dbState 0xABCD 0 false [.writeByte 0x7009 0x00])),
     nextOf (step (dbState 3 0 false [.writeByte 0x7001 0x10])),
     nextOf (step (dbState 3 0 false [.writeWord 0x700C 0x1234]))] =
    [some (dbState 0x00CD 0 false []), some (dbState 3 0 false []), some (dbState 3 0 false [])] := by decide
theorem test_odd_word_write : step (dbState 3 0 false [.writeWord 0x7005 0x1234]) = .refused .misalignedWord := rfl

-- V-M1's reads, V-M4's read of INFO, V-M5
theorem test_host_reads :
    [readRow (step (dbState 0x1234 0 false [.readByte 0x7008])),
     readRow (step (dbState 0x1234 0 false [.readByte 0x7009])),
     readRow (step (dbState 3 0 false [.readWord 0x701E])),
     readRow (step (dbState 3 0 false [.readByte 0x701F])),
     readRow (step (dbState 3 0 false [.readWord 0x701C]))] =
    [some (.byte 0x34),
     some (.byte 0x12),
     some (.word 0x0501),
     some (.byte 0x05),
     some (.word 0x0000)] := by decide

-- INFO of configurations A and B (95_test_vectors.md section 2.2)
theorem test_info : infoWord .vectorsA = 0x0201#16 ∧ infoWord .vectorsB = 0x0100#16 := by decide

/-! ## Witnesses: for each statement with hypotheses, a state and operands that meet all of them -/

/-- A command write of v to the reference block, as the only pending event, threshold 3. -/
def cmdState (v : Word) : State := dbState 3 0 false [.writeWord 0x7000 v]

theorem witness_DecodeOfEncodeIsIdentity :
    wellFormed (.dbpeek true 255) = true ∧ wellFormed (.dbinit 0) = true := by decide

theorem witness_EncodeOfDecodeIsIdentity : decode 0x21FF#16 = .instr (.dbpos true 255) := by decide

theorem witness_DecoderFollowsOpcodeTable :
    0x0000#16 &&& 0xFFFF#16 = 0x0000#16 ∧ 0x1001#16 &&& 0xFFFE#16 = 0x1000#16 ∧ 0x21FF#16 &&& 0xFE00#16 = 0x2000#16 ∧
    0x31FF#16 &&& 0xFE00#16 = 0x3000#16 ∧ 0x40FF#16 &&& 0xFF00#16 = 0x4000#16 ∧ 0x51FF#16 &&& 0xFE00#16 = 0x5000#16 ∧
    (0x0001#16 &&& 0xFFFF#16 ≠ 0x0000#16 ∧ 0x0001#16 &&& 0xFFFE#16 ≠ 0x1000#16 ∧
      0x0001#16 &&& 0xFE00#16 ≠ 0x2000#16 ∧ 0x0001#16 &&& 0xFE00#16 ≠ 0x3000#16 ∧
      0x0001#16 &&& 0xFF00#16 ≠ 0x4000#16 ∧ 0x0001#16 &&& 0xFE00#16 ≠ 0x5000#16) := by decide

theorem witness_StepRunsDecodedCommand :
    (cmdState 0x2100).cfg.legal = true ∧ (cmdState 0x2100).bus = cmdWrite (cmdState 0x2100).cfg 0x2100#16 :: [] ∧
    decode 0x2100#16 = .instr (.dbpos true 0) ∧ decode 0x6000#16 = .illegal .reservedOpcode := by decide

-- one word for each clause, at the edge of its range
theorem witness_IllegalWordOnlyReports :
    (cmdState 0x6000).cfg.legal = true ∧ (cmdState 0x6000).bus = cmdWrite (cmdState 0x6000).cfg 0x6000#16 :: [] ∧
    6 ≤ (0x6000#16).toNat / 4096 ∧ (0x0001#16).toNat % 4096 ≠ 0 ∧ (0x1002#16).toNat % 4096 / 2 ≠ 0 ∧
    (0x2200#16).toNat % 4096 / 512 ≠ 0 ∧ (0x3200#16).toNat % 4096 / 512 ≠ 0 ∧ (0x4100#16).toNat % 4096 / 256 ≠ 0 ∧
    (0x5200#16).toNat % 4096 / 512 ≠ 0 := by decide

theorem witness_NopOnlyClearsStatus : (0x0FFF#16).toNat < 4096 ∧ 0x0FFF#16 ≠ 0x0000#16 := by decide

theorem witness_FailedCommandChangesOnlyCmdAndStatus :
    ∃ t, step (cmdState 0x4002) = .next t ∧ t.status ≠ 0x0000#16 := ⟨_, rfl, by decide⟩

theorem witness_CommandReportsOneOfSixStatusWords :
    (cmdState 0x1001).cfg.legal = true ∧ (cmdState 0x1001).bus = cmdWrite (cmdState 0x1001).cfg 0x1001#16 :: [] ∧
    ∃ t, step (cmdState 0x1001) = .next t := ⟨by decide, by decide, _, rfl⟩

-- one word for each clause; instance 2 is the first that does not exist, instance 1 the last that does
theorem witness_ChecksRunInOrder :
    decode 0x2A07#16 = .illegal .reservedBits ∧
    (decode 0x2102#16 = .instr (.dbpos true 2) ∧ namedUnit (.dbpos true 2) = some 2 ∧ State.reset.cfg.nDb ≤ 2) ∧
    (decode 0x3001#16 = .instr (pollCmd false false 1) ∧ 1 < State.reset.cfg.nDb ∧ State.reset.thresh = 0x0000#16) ∧
    (decode 0x3001#16 = .instr (pollCmd false false 1) ∧ (cmdState 0x3001).thresh ≠ 0x0000#16) ∧
    decode 0x4001#16 = .instr (.dbinit 1) ∧ decode 0x5101#16 = .instr (.dbpeek true 1) ∧
    (decode 0x1000#16 = .instr (.quant .w8) ∧ requestOf State.reset < tickOf State.reset.cfg 0) ∧
    tickOf Config.reference 0 ≤ requestOf (quState .reference 32704 []) := by decide

theorem witness_QuantHasNoValidClock :
    ¬ ∃ k, ValidClock Config.reference (requestOf (quState .reference 32704 [])) (2 ^ Width.w8.bits - 1) k := by
  rintro ⟨k, hk⟩
  have h6 : k < 6 := hk.1
  have : ∀ j : Fin 6, ¬ ValidClock Config.reference (requestOf (quState .reference 32704 [])) (2 ^ Width.w8.bits - 1) j := by
    decide
  exact this ⟨k, h6⟩ hk

theorem witness_CommandsWriteOnlyTheirOwnState :
    (∃ t, step (cmdState 0x1001) = .next t) ∧ (∃ t, step (cmdState 0x2100) = .next t) ∧
    decode 0x1001#16 = .instr (.quant .w16) ∧ decode 0x2100#16 = .instr (pollCmd true true 0) ∧
    decode 0x5000#16 = .instr (.dbpeek false 0) ∧ decode 0x4000#16 = .instr (.dbinit 0) ∧
    decode 0x0000#16 = .instr .nop ∧ decode 0x7000#16 = .illegal .reservedOpcode :=
  ⟨⟨_, rfl⟩, ⟨_, rfl⟩, by decide, by decide, by decide, by decide, by decide, by decide⟩

theorem witness_OnlyPollsAreNotIdempotent :
    (∀ d raw n, Instr.dbinit 0 ≠ pollCmd d raw n) ∧ ∃ t, exec (.dbinit 0) State.reset = .next t :=
  ⟨fun d raw n => (by cases d <;> intro h <;> cases h), _, rfl⟩

-- b = 1 and, for the half, 5/2
theorem witness_RoundHalfUpIsNearest : 0 < 1 ∧ 0 < 2 ∧ 2 * 5 = (2 * 2 + 1) * 2 ∧ roundHalfUp 5 2 = 3 := by decide

theorem witness_EligibleClockCountsAtLeastOne :
    Config.reference.legal = true ∧ 5 < Config.reference.nclk ∧ tickOf Config.reference 5 ≤ 128 := by decide

-- 1022 µs at width 8 selects clock 3 (V-Q13)
theorem witness_QuantWritesSelectedClock :
    (quState .reference 1022 []).cfg.legal = true ∧
    SelectedClock Config.reference (requestOf (quState .reference 1022 [])) (2 ^ Width.w8.bits - 1) 3 := by
  refine ⟨by decide, by decide, fun j hj => ?_⟩
  have h6 : j < 6 := hj.1
  have : ∀ i : Fin 6, ValidClock Config.reference (requestOf (quState .reference 1022 [])) (2 ^ Width.w8.bits - 1) i →
      errorOf Config.reference (requestOf (quState .reference 1022 [])) 3 ≤
        errorOf Config.reference (requestOf (quState .reference 1022 [])) i ∧
      (i.val < 3 → errorOf Config.reference (requestOf (quState .reference 1022 [])) 3 <
        errorOf Config.reference (requestOf (quState .reference 1022 [])) i) := by decide
  exact this ⟨j, h6⟩ hj

-- the first clause one quantum below the first tick, the last at the width's first failure (witness_QuantHasNoValidClock)
theorem witness_QuantFailureCodes :
    requestOf (quState .vectorsB 2 []) < tickOf Config.vectorsB 0 ∧ Config.vectorsB.legal = true ∧
    State.reset.intvHi = 0x0000#16 ∧ State.reset.intvLo = 0x0000#16 ∧
    tickOf Config.reference 0 ≤ requestOf (quState .reference 32704 []) := by decide

theorem witness_QuantSucceeds :
    (quState .reference 8000 []).cfg.legal = true ∧
    ∃ t, exec (.quant .w8) (quState .reference 8000 []) = .next t ∧ t.status = 0x0000#16 := ⟨by decide, _, rfl, by decide⟩

theorem witness_QuantSucceedsOnExactRequests :
    5 < Config.reference.nclk ∧ 1 ≤ 65535 ∧ 65535 ≤ 2 ^ Width.w16.bits - 1 ∧
    requestOf (quState .reference 8388480 []) = 65535 * tickOf Config.reference 5 := by decide

theorem witness_SlowestEligibleClockDecidesOutOfRange :
    tickOf Config.reference 0 ≤ requestOf (quState .reference 127 []) ∧ 4 < Config.reference.nclk ∧
    tickOf Config.reference 4 ≤ requestOf (quState .reference 127 []) ∧
    (∀ j : Fin 6, tickOf Config.reference j ≤ requestOf (quState .reference 127 []) → j.val ≤ 4) := by decide

theorem witness_QuantDependsOnlyOnRequestAndTable :
    let s := quState .reference 50000 []
    let s' := { quState .reference 50000 [] with status := 0x0011, cmd := 0x1000 }
    s.intvHi = s'.intvHi ∧ s.intvLo = s'.intvLo ∧ s.cfg.tick = s'.cfg.tick ∧ s.cfg.qpu = s'.cfg.qpu := by decide

theorem witness_ReferenceTableFailureSets :
    State.reset.cfg.tick = [1, 2, 4, 8, 16, 128] ∧ State.reset.cfg.qpu = 1 ∧
    (quState .reference 8388543 []).intv = 8388543 := by decide

-- each clause of the poll's rule at the value where it meets the next one (threshold 3)
theorem witness_PollRule :
    (dbState 3 1 false []).cfg.legal = true ∧ (dbState 3 1 false []).units.length = (dbState 3 1 false []).cfg.nDb ∧
    State.reset.cfg.nDb ≤ 2 ∧ 1 < State.reset.cfg.nDb ∧ State.reset.thresh = 0x0000#16 ∧
    (dbState 3 1 false []).thresh ≠ 0x0000#16 ∧
    ((dbState 3 1 false []).cnt 0).toNat + 1 < (dbState 3 1 false []).thresh.toNat ∧
    ((dbState 3 2 false []).cnt 0).toNat + 1 = (dbState 3 2 false []).thresh.toNat ∧
    (dbState 3 3 true []).thresh.toNat ≤ ((dbState 3 3 true []).cnt 0).toNat ∧ (false : Bool) ≠ true := by decide

theorem witness_SettledEventExactlyAtThreshold :
    (dbState 3 2 false []).units.length = (dbState 3 2 false []).cfg.nDb ∧ 0 < (dbState 3 2 false []).cfg.nDb ∧
    (dbState 3 2 false []).thresh ≠ 0x0000#16 := by decide

/-- Threshold 2, and a stream of matching polls of unit 0, a contrary one after the first. -/
def runState (bus : List HostEvent) : State := dbState 2 0 false bus

theorem witness_Runs :
    (runState []).cfg.legal = true ∧ (runState []).units.length = (runState []).cfg.nDb ∧
    0 < (runState []).cfg.nDb ∧ (runState []).thresh ≠ 0x0000#16 ∧ (runState []).cnt 0 = 0x0000#16 ∧
    [.writeWord 0x7000 0x2100#16, .writeWord 0x7000 0x2100#16] =
      List.replicate 2 (cmdWrite (runState []).cfg (encode (pollCmd true true 0))) ++ [] ∧
    1 < (runState []).thresh.toNat ∧
    [.writeWord 0x7000 0x2100#16, .writeWord 0x7000 0x2000#16, .writeWord 0x7000 0x2100#16] =
      List.replicate 1 (cmdWrite (runState []).cfg (encode (pollCmd true true 0))) ++
      cmdWrite (runState []).cfg (encode (pollCmd true (!true) 0)) ::
      (List.replicate 1 (cmdWrite (runState []).cfg (encode (pollCmd true true 0))) ++ []) := by decide

theorem witness_UnitsAreIndependent :
    (∃ t, exec (.dbpos true 0) (dbState 3 1 false []) = .next t) ∧ namedUnit (.dbpos true 0) ≠ some 1 ∧
    [Debounce.mk 1 false, Debounce.mk 7 true].length = (dbState 3 1 false []).units.length ∧
    [Debounce.mk 1 false, Debounce.mk 7 true][0]? = (dbState 3 1 false []).units[0]? := ⟨⟨_, rfl⟩, by decide, by decide, by decide⟩

theorem witness_CounterNeverWraps :
    (dbState 65535 65534 false []).units.length = (dbState 65535 65534 false []).cfg.nDb ∧
    ∃ t, exec (pollCmd true true 0) (dbState 65535 65534 false []) = .next t := ⟨by decide, _, rfl⟩

-- the accesses: the first and the last slot of the window, a byte at the odd offset, the addresses beside the window
theorem witness_HostAccesses :
    (dbState 3 0 false [.readWord 0x7000]).bus = .readWord (Config.reference.base + Reg.cmd.offset) :: [] ∧
    (dbState 3 0 false [.readWord 0x701E]).bus = .readWord (Config.reference.base + Reg.info.offset) :: [] ∧
    (dbState 3 0 false [.readByte 0x701F]).bus = .readByte (Config.reference.base + Reg.info.offset + 1) :: [] ∧
    (dbState 3 0 false [.writeWord 0x7008 7]).bus = .writeWord (Config.reference.base + Reg.thresh.offset) 7 :: [] ∧
    (dbState 3 0 false [.writeByte 0x7009 7]).bus = .writeByte (Config.reference.base + Reg.thresh.offset + 1) 7 :: [] ∧
    (31 < 32 ∧ 31 % 2 = 1 ∧ (dbState 3 0 false [.readWord 0x701F]).bus = .readWord (Config.reference.base + 31) :: []) ∧
    0x6FFF < Config.reference.base ∧ Config.reference.base + 32 ≤ 0x7020 ∧ Config.reference.legal = true := by decide

theorem witness_ReadAfterWriteReturnsTheWord :
    (dbState 3 0 false [.writeWord 0x7000 0x7123, .readWord 0x7000]).bus =
      .writeWord (Config.reference.base + Reg.cmd.offset) 0x7123 ::
      .readWord (Config.reference.base + Reg.cmd.offset) :: [] := by decide

theorem witness_LongWriteSetsTheInterval :
    (dbState 3 0 false [.writeWord 0x7004 0x8480, .writeWord 0x7006 0x001E]).bus =
      write32Events (Config.reference.base + 4) 2000000#32 ++ [] := by decide

theorem witness_OnlyCmdWordWritesExecute :
    HostEvent.writeByte 0x7000 1 ≠ .reset ∧ HostEvent.writeByte 0x7000 1 ≠ .powerCycle ∧
    (∀ v, HostEvent.writeByte 0x7000 1 ≠ cmdWrite Config.reference v) ∧
    ∃ t, step (dbState 3 0 false [.writeByte 0x7000 1]) = .next t :=
  ⟨by decide, by decide, fun v h => (by cases h), _, rfl⟩

theorem witness_PseudoInstructionExpansions : 255 < 256 := by decide

-- 17 clocks are too many, N_DB = 257 is too many, and the edges 16 and 256 are legal
theorem witness_IllegalConfigurationIsRejected :
    ({ Config.reference with tick := List.range' 1 17 } : Config).legal = false ∧
    ({ Config.reference with nDb := 257 } : Config).legal = false ∧
    ({ Config.reference with tick := [1, 1] } : Config).legal = false ∧
    ({ Config.reference with tick := List.range' 1 16, nDb := 256, qpu := 65536 } : Config).legal = true := by decide

theorem witness_InfoIsConstant :
    State.reset.cfg.legal = true ∧ ∃ t, step (State.reset.withFetchWord 16 0x1001) = .next t := ⟨by decide, _, rfl⟩

theorem witness_ResetClearsEverything :
    Config.vectorsA.legal = true ∧ Config.vectorsB.legal = true ∧ (dbState 3 2 true [.reset]).cfg.legal = true ∧
    (dbState 3 2 true [.reset]).bus = .reset :: [] := by decide

theorem witness_NothingRunsUntilTheHostWrites : State.reset.cfg.legal = true ∧ State.reset.bus = [] := by decide

theorem witness_StepKeepsInvariant :
    (cmdState 0x2100).Inv ∧ ∃ t, step (cmdState 0x2100) = .next t := ⟨by decide, _, rfl⟩

theorem witness_StepKeepsQuantResultsCoherent :
    (quState .reference 8000 [.writeWord 0x7000 0x1000]).QuantCoherent ∧
    (quState .reference 8000 [.writeWord 0x7000 0x1000]).bus.head? ≠ some .powerCycle ∧
    ∃ t, step (quState .reference 8000 [.writeWord 0x7000 0x1000]) = .next t := ⟨by decide, by decide, _, rfl⟩

theorem witness_StepKeepsSettledUnitsCounted :
    (dbState 3 3 true [.writeWord 0x7000 0x2100]).SettledHaveCounted ∧
    (dbState 3 3 true [.writeWord 0x7000 0x2100]).bus.head? ≠ some .powerCycle ∧
    ∃ t, step (dbState 3 3 true [.writeWord 0x7000 0x2100]) = .next t := ⟨by decide, by decide, _, rfl⟩

theorem witness_AnsweredStreamsRunToTheEnd :
    (dbState 3 0 false [.readByte 0x701F, .writeWord 0x7000 0x2100, .reset]).Inv ∧
    (dbState 3 0 false [.readByte 0x701F, .writeWord 0x7000 0x2100, .reset]).BusAnswered ∧
    3 ≤ (dbState 3 0 false [.readByte 0x701F, .writeWord 0x7000 0x2100, .reset]).bus.length := by decide

end Sys2Proof.Tests
end

section
/-! SUPPORT. The rounding of 00_scope.md R13: the formula, a nearest integer, and an exact half. -/

namespace Sys2Proof

/-- The multiple `r·b` lies within half a `b` of `a`, so every other multiple lies at least half a `b` away. -/
theorem natAbs_sub_mul_le_of_half {a r b : Int} (hlo : 2 * (r * b) ≤ 2 * a + b) (hhi : 2 * a ≤ 2 * (r * b) + b)
    (m : Int) : (a - r * b).natAbs ≤ (a - m * b).natAbs := by
  have hb : 0 ≤ b := by omega
  obtain hlt | rfl | hgt := lt_trichotomy m r
  · have hstep : (m + 1) * b ≤ r * b := mul_le_mul_of_nonneg_right hlt hb
    rw [add_one_mul] at hstep
    omega
  · exact le_rfl
  · have hstep : (r + 1) * b ≤ m * b := mul_le_mul_of_nonneg_right hgt hb
    rw [add_one_mul] at hstep
    omega

/-- No multiple of b is nearer to a than the rounded one: round_half_up(a, b) is an integer nearest to a/b. -/
theorem roundHalfUp_nearest (a : Nat) {b : Nat} (hb : 0 < b) (m : Int) :
    ((a : Int) - (roundHalfUp a b : Int) * b).natAbs ≤ ((a : Int) - m * b).natAbs := by
  obtain ⟨hlo, hhi⟩ := roundHalfUp_bounds a hb
  exact natAbs_sub_mul_le_of_half (by exact_mod_cast hlo) (by exact_mod_cast hhi.le) m

/-- Where a/b = m + 1/2, the numerator 2a + b is (m + 1)·2b. -/
theorem roundHalfUp_of_exact_half {a b m : Nat} (hb : 0 < b) (hhalf : 2 * a = (2 * m + 1) * b) :
    roundHalfUp a b = m + 1 := by
  have hnum : 2 * a + b = (m + 1) * (2 * b) := by rw [hhalf]; ring
  rw [roundHalfUp, hnum, Nat.mul_div_cancel _ (by omega)]

/-- Settles O13: the formula is the definition's, nearness and the exact half are the two lemmas above. -/
theorem roundHalfUpIsNearest : Obligations.RoundHalfUpIsNearest := fun a _ hb =>
  ⟨rfl, roundHalfUp_nearest a hb, fun _ hhalf => roundHalfUp_of_exact_half hb hhalf⟩

end Sys2Proof
end

section
/-! SUPPORT. INFO: the number its word stands for, that no step changes it, and its fields (10_state.md R28). -/

namespace Sys2Proof.Machine

/-- The INFO word of a legal configuration, as a number: both fields fit (10_state.md R28, 00_scope.md R6). -/
theorem toNat_infoWord {c : Config} (h : c.legal = true) :
    (infoWord c).toNat = 256 * (c.nclk - 1) + (c.nDb - 1) := by
  obtain ⟨hnclk, hnclk', -, -, hnDb, hnDb'⟩ := c.bounds_of_legal h
  have hclocks : (BitVec.ofNat 4 (c.nclk - 1)).toNat = c.nclk - 1 := Nat.mod_eq_of_lt (by omega)
  have hunits : (BitVec.ofNat 8 (c.nDb - 1)).toNat = c.nDb - 1 := Nat.mod_eq_of_lt (by omega)
  rw [infoWord, BitVec.toNat_append, BitVec.toNat_append, hclocks, hunits,
    ← Nat.shiftLeft_add_eq_or_of_lt (by omega)]
  simp [Nat.shiftLeft_eq, Nat.mul_comm]

/-- No step changes the configuration (10_state.md R32). -/
theorem step_cfg {s t : State} (h : step s = .next t) : t.cfg = s.cfg := by
  obtain ⟨-, ⟨-, rfl⟩ | ⟨e, rest, -, hperform⟩⟩ := step_cases h
  · rfl
  · exact perform_cfg (s := { s with bus := rest }) hperform

/-- Settles O46: the fields are the digits of `toNat_infoWord`, and INFO is a function of the configuration, which
no step changes. -/
theorem infoIsConstant : Obligations.InfoIsConstant := by
  refine ⟨fun s hlegal => ?_, fun s t hstep => ?_, by decide⟩
  · obtain ⟨hnclk, hnclk', -, -, hnDb, hnDb'⟩ := s.cfg.bounds_of_legal hlegal
    rw [getReg_info, toNat_infoWord hlegal]
    omega
  · rw [getReg_info, getReg_info, step_cfg hstep]

end Sys2Proof.Machine
end

section
/-! SUPPORT. The host's accesses to the window: what each event does at an address that is located, and what that is
for the register in the slot (20_memory.md R38 to R44). -/

namespace Sys2Proof.Machine

/-! The events at a located address. -/

section Events

variable {s : State} {a o : Nat}

theorem perform_readByte (ha : s.cfg.locate a = some o) :
    perform (.readByte a) s = .next { s with lastRead := some (.byte (s.windowByte o)) } := by
  simp [perform, hostReadByte, ha]

theorem perform_readWord (ha : s.cfg.locate a = some o) (ho : o % 2 = 0) :
    perform (.readWord a) s = .next { s with lastRead := some (.word (s.windowWord o)) } := by
  simp [perform, hostReadWord, ha, ho]

theorem perform_readWord_odd (ha : s.cfg.locate a = some o) (ho : o % 2 = 1) :
    perform (.readWord a) s = .refused .misalignedWord := by
  simp [perform, hostReadWord, ha, ho]

theorem perform_writeByte {b : Byte} (ha : s.cfg.locate a = some o) :
    perform (.writeByte a b) s = .next (s.storeByte o b) := by
  simp [perform, hostWriteByte, ha]

/-- A word write that does not reach CMD only stores. The one that does is `step_cmdWrite`. -/
theorem perform_writeWord {v : Word} (ha : s.cfg.locate a = some o) (ho : o % 2 = 0)
    (hcmd : (Reg.ofOffset o).access ≠ .cmd) : perform (.writeWord a v) s = .next (s.storeWord o v) := by
  simp [perform, hostWriteWord, ha, ho, hcmd]

theorem perform_writeWord_odd {v : Word} (ha : s.cfg.locate a = some o) (ho : o % 2 = 1) :
    perform (.writeWord a v) s = .refused .misalignedWord := by
  simp [perform, hostWriteWord, ha, ho]

end Events

/-! The slot's register, by its access class. -/

/-- The host can write three registers (10_state.md R16). -/
theorem access_eq_rw {r : Reg} : r.access = .rw ↔ r = .intvLo ∨ r = .intvHi ∨ r = .thresh := by
  cases r <;> decide

/-- A register holds what it holds whatever is pending. -/
@[simp] theorem getReg_bus (s : State) (rest : List HostEvent) (r : Reg) :
    ({ s with bus := rest } : State).getReg r = s.getReg r := by
  cases r <;> rfl

theorem storeWord_of_rw {o : Nat} (h : (Reg.ofOffset o).access = .rw) (s : State) (v : Word) :
    s.storeWord o v = s.setReg (Reg.ofOffset o) v := by
  simp [State.storeWord, h]

theorem storeWord_of_ne_rw {o : Nat} (h : (Reg.ofOffset o).access ≠ .rw) (s : State) (v : Word) :
    s.storeWord o v = s :=
  (storeWord_cases s o v).resolve_right fun hrw => h hrw.1

theorem storeByte_of_rw {o : Nat} (h : (Reg.ofOffset o).access = .rw) (s : State) (b : Byte) :
    s.storeByte o b = s.setReg (Reg.ofOffset o) (withByte o b (s.getReg (Reg.ofOffset o))) := by
  simp [State.storeByte, h]

theorem storeByte_of_ne_rw {o : Nat} (h : (Reg.ofOffset o).access ≠ .rw) (s : State) (b : Byte) :
    s.storeByte o b = s :=
  (storeByte_cases s o b).resolve_right fun hrw => h hrw.1

/-! The bytes of a slot, in numbers (20_memory.md R39). -/

theorem windowByte_offset (s : State) (r : Reg) :
    s.windowByte r.offset = BitVec.ofNat 8 ((s.getReg r).toNat % 256) := by
  simp [State.windowByte, offset_even, lowByte_eq]

theorem windowByte_offset_succ (s : State) (r : Reg) :
    s.windowByte (r.offset + 1) = BitVec.ofNat 8 ((s.getReg r).toNat / 256) := by
  have hodd : (r.offset + 1) % 2 ≠ 0 := by have := offset_even r; omega
  simp [State.windowByte, hodd, highByte_eq]

/-- Two bytes side by side, as a number. -/
theorem byte_append_byte (hi lo : Byte) : hi ++ lo = BitVec.ofNat 16 (256 * hi.toNat + lo.toNat) := by
  apply BitVec.eq_of_toNat_eq
  have hhi := hi.isLt
  have hlo := lo.isLt
  rw [BitVec.toNat_append, ← Nat.shiftLeft_add_eq_or_of_lt hlo, Nat.shiftLeft_eq, BitVec.toNat_ofNat]
  omega

theorem withByte_even {o : Nat} (ho : o % 2 = 0) (b : Byte) (v : Word) :
    withByte o b v = BitVec.ofNat 16 (v.toNat / 256 * 256 + b.toNat) := by
  have hhigh : (highByte v).toNat = v.toNat / 256 := by
    rw [highByte_eq, BitVec.toNat_ofNat]; have := v.isLt; omega
  rw [withByte, if_pos ho, byte_append_byte, hhigh, Nat.mul_comm]

theorem withByte_odd {o : Nat} (ho : o % 2 = 1) (b : Byte) (v : Word) :
    withByte o b v = BitVec.ofNat 16 (256 * b.toNat + v.toNat % 256) := by
  have hlow : (lowByte v).toNat = v.toNat % 256 := by
    rw [lowByte_eq, BitVec.toNat_ofNat, Nat.mod_mod]
  rw [withByte, if_neg (by omega), byte_append_byte, hlow]

end Sys2Proof.Machine
end

section
/-! SUPPORT. One step at a register's address, by the register's access class, and the claims on the host's accesses
(20_memory.md R40 to R44). -/

namespace Sys2Proof.Machine

section Steps

variable {s : State} {r : Reg} {rest : List HostEvent}

theorem step_writeWord_rw {v : Word} (hlegal : s.cfg.legal = true)
    (hbus : s.bus = .writeWord (s.cfg.base + r.offset) v :: rest) (hrw : r.access = .rw) :
    step s = .next (({ s with bus := rest } : State).setReg r v) := by
  rw [step_cons hlegal hbus, perform_writeWord (s := { s with bus := rest }) (locate_offset s.cfg r) (offset_even r)
    (by simp [hrw]), storeWord_of_rw (by simpa using hrw), ofOffset_offset]

theorem step_writeWord_ignored {v : Word} (hlegal : s.cfg.legal = true)
    (hbus : s.bus = .writeWord (s.cfg.base + r.offset) v :: rest) (hrw : r.access ≠ .rw) (hcmd : r.access ≠ .cmd) :
    step s = .next { s with bus := rest } := by
  rw [step_cons hlegal hbus, perform_writeWord (s := { s with bus := rest }) (locate_offset s.cfg r) (offset_even r)
    (by simpa using hcmd), storeWord_of_ne_rw (by simpa using hrw)]

/-- A byte write to either byte of an RW register's slot. -/
theorem step_writeByte_rw {a o : Nat} {b : Byte} (hlegal : s.cfg.legal = true) (hbus : s.bus = .writeByte a b :: rest)
    (ha : s.cfg.locate a = some o) (hslot : Reg.ofOffset o = r) (hrw : r.access = .rw) :
    step s = .next (({ s with bus := rest } : State).setReg r (withByte o b (s.getReg r))) := by
  subst hslot
  rw [step_cons hlegal hbus, perform_writeByte (s := { s with bus := rest }) ha, storeByte_of_rw hrw, getReg_bus]

theorem step_writeByte_even_rw {b : Byte} (hlegal : s.cfg.legal = true)
    (hbus : s.bus = .writeByte (s.cfg.base + r.offset) b :: rest) (hrw : r.access = .rw) :
    step s = .next (({ s with bus := rest } : State).setReg r
      (BitVec.ofNat 16 ((s.getReg r).toNat / 256 * 256 + b.toNat))) := by
  rw [step_writeByte_rw hlegal hbus (locate_offset s.cfg r) (ofOffset_offset r) hrw, withByte_even (offset_even r)]

theorem step_writeByte_odd_rw {b : Byte} (hlegal : s.cfg.legal = true)
    (hbus : s.bus = .writeByte (s.cfg.base + r.offset + 1) b :: rest) (hrw : r.access = .rw) :
    step s = .next (({ s with bus := rest } : State).setReg r
      (BitVec.ofNat 16 (256 * b.toNat + (s.getReg r).toNat % 256))) := by
  have hodd : (r.offset + 1) % 2 = 1 := by have := offset_even r; omega
  rw [step_writeByte_rw hlegal hbus (locate_offset_succ s.cfg r) (ofOffset_offset_succ r) hrw, withByte_odd hodd]

/-- A byte write to any other slot, CMD's included, at either parity. -/
theorem step_writeByte_ignored {a o : Nat} {b : Byte} (hlegal : s.cfg.legal = true)
    (hbus : s.bus = .writeByte a b :: rest) (ha : s.cfg.locate a = some o) (hslot : Reg.ofOffset o = r)
    (hrw : r.access ≠ .rw) : step s = .next { s with bus := rest } := by
  subst hslot
  rw [step_cons hlegal hbus, perform_writeByte (s := { s with bus := rest }) ha, storeByte_of_ne_rw hrw]

end Steps

/-- Settles O36: an RW register, a register that is neither RW nor CMD, and CMD, whose write is a command cycle. -/
theorem wordWriteByAccessClass : Obligations.WordWriteByAccessClass := by
  intro s r v rest hlegal hbus
  refine ⟨?intvLo, ?intvHi, ?thresh, ?ignored, ?cmd⟩
  case intvLo => rintro rfl; exact step_writeWord_rw hlegal hbus rfl
  case intvHi => rintro rfl; exact step_writeWord_rw hlegal hbus rfl
  case thresh => rintro rfl; exact step_writeWord_rw hlegal hbus rfl
  case ignored =>
    intro hlo hhi hthresh hcmd
    exact step_writeWord_ignored hlegal hbus (by simp [access_eq_rw, hlo, hhi, hthresh]) (by simp [access_eq_cmd, hcmd])
  case cmd =>
    rintro rfl
    have hcycle : step s = issue v { s with bus := rest } := step_cmdWrite hlegal hbus
    exact ⟨fun i hi => hcycle.trans (issue_instr hi _), fun why hwhy => hcycle.trans (issue_illegal hwhy _)⟩

/-- Settles O37: at each parity, the three RW registers take the byte and every other slot ignores it. -/
theorem byteWriteByAccessClass : Obligations.ByteWriteByAccessClass := by
  intro s r b rest hlegal
  have hignored (hlo : r ≠ .intvLo) (hhi : r ≠ .intvHi) (hthresh : r ≠ .thresh) : r.access ≠ .rw := by
    simp [access_eq_rw, hlo, hhi, hthresh]
  constructor <;> intro hbus
  case left =>
    refine ⟨?_, ?_, ?_, fun hlo hhi hthresh => step_writeByte_ignored hlegal hbus (locate_offset s.cfg r)
      (ofOffset_offset r) (hignored hlo hhi hthresh)⟩ <;>
    · rintro rfl
      exact step_writeByte_even_rw hlegal hbus rfl
  case right =>
    refine ⟨?_, ?_, ?_, fun hlo hhi hthresh => step_writeByte_ignored hlegal hbus (locate_offset_succ s.cfg r)
      (ofOffset_offset_succ r) (hignored hlo hhi hthresh)⟩ <;>
    · rintro rfl
      exact step_writeByte_odd_rw hlegal hbus rfl

/-- Settles O34: the slot of a register's offset is that register, and the two constants are `getReg`'s own. -/
theorem wordReadReturnsTheRegister : Obligations.WordReadReturnsTheRegister := by
  intro s r rest hlegal hbus
  refine ⟨?_, getReg_reserved s, getReg_info s⟩
  rw [step_cons hlegal hbus, perform_readWord (s := { s with bus := rest }) (locate_offset s.cfg r) (offset_even r),
    State.windowWord, ofOffset_offset, getReg_bus]

/-- Settles O35: the byte of the slot at each parity, in numbers. -/
theorem byteReadReturnsTheByte : Obligations.ByteReadReturnsTheByte := by
  intro s r rest hlegal
  constructor <;> intro hbus
  case left =>
    rw [step_cons hlegal hbus, perform_readByte (s := { s with bus := rest }) (locate_offset s.cfg r),
      windowByte_offset, getReg_bus]
  case right =>
    rw [step_cons hlegal hbus, perform_readByte (s := { s with bus := rest }) (locate_offset_succ s.cfg r),
      windowByte_offset_succ, getReg_bus]

/-- Settles O38: every offset below 32 is located, so an odd word access is refused for its parity and a byte access
is one of those the block answers. -/
theorem oddWordAccessIsRefused : Obligations.OddWordAccessIsRefused := by
  intro s o rest hlegal ho
  have hloc : s.cfg.locate (s.cfg.base + o) = some o := locate_base_add ho
  refine ⟨fun hodd hbus => ?readWord, fun _ hodd hbus => ?writeWord, fun hbus => ?readByte,
    fun _ hbus => ?writeByte⟩
  case readWord => exact (step_cons hlegal hbus).trans (perform_readWord_odd hloc hodd)
  case writeWord => exact (step_cons hlegal hbus).trans (perform_writeWord_odd hloc hodd)
  case readByte => exact ⟨_, (step_cons hlegal hbus).trans (perform_readByte hloc)⟩
  case writeByte => exact ⟨_, (step_cons hlegal hbus).trans (perform_writeByte hloc)⟩

end Sys2Proof.Machine
end

section
/-! SUPPORT. The opcode table in numbers: which words meet a row, which words are commands, and how many there are
(30_encoding.md R55, R58). -/

namespace Sys2Proof

/-- How many words with opcode op are commands: two to the number of bits that the opcode's row leaves free. -/
def commandsUnder : Nat → Nat
  | 0 => 1
  | 1 => 2
  | 2 => 512
  | 3 => 512
  | 4 => 256
  | 5 => 512
  | _ => 0

/-- A word meets the row that fixes opcode op and clears every other bit above the k free ones if and only if its
opcode is op and its low 12 bits fit in k. -/
theorem and_mask_eq_iff (v : Word) (k op : Nat) (hk : k ≤ 12) (hop : op < 16) :
    v &&& BitVec.allOnes 16 <<< k = BitVec.ofNat 16 (4096 * op) ↔
      v.toNat / 4096 = op ∧ v.toNat % 4096 < 2 ^ k := by
  have hmasked : (v &&& BitVec.allOnes 16 <<< k).toNat = v.toNat / 2 ^ k * 2 ^ k := by
    have hle := Nat.div_mul_le_self v.toNat (2 ^ k)
    rw [← BitVec.shiftLeft_ushiftRight, BitVec.toNat_shiftLeft, BitVec.toNat_ushiftRight, Nat.shiftLeft_eq,
      Nat.shiftRight_eq_div_pow, Nat.mod_eq_of_lt (by omega)]
  rw [← BitVec.toNat_inj, hmasked, BitVec.toNat_ofNat, Nat.mod_eq_of_lt (by omega)]
  interval_cases k <;> omega

theorem exists_ite_eq_instr_iff {p : Prop} [Decidable p] {j : Instr} {why : Illegal} :
    (∃ i, (if p then Decoded.instr j else .illegal why) = .instr i) ↔ p := by
  by_cases h : p <;> simp [h]

/-- A word decodes to a command if and only if its low 12 bits are among those its opcode allows. -/
theorem exists_decode_instr_iff (v : Word) :
    (∃ i, decode v = .instr i) ↔ v.toNat % 4096 < commandsUnder (v.toNat / 4096) := by
  rw [decode_eq]
  match v.toNat / 4096 with
  | 0 | 1 | 2 | 3 | 4 | 5 => simp [commandsUnder, exists_ite_eq_instr_iff]
  | op + 6 => simp [commandsUnder]

theorem decodeTableWord_isSome_iff {x : Nat} (hx : x < 65536) :
    (decodeTableWord 16 x).isSome ↔ x % 4096 < commandsUnder (x / 4096) := by
  have hword : (BitVec.ofNat 16 (x % 2 ^ 16)).toNat = x := by rw [BitVec.toNat_ofNat]; omega
  have h := exists_decode_instr_iff (BitVec.ofNat 16 (x % 2 ^ 16))
  rw [hword] at h
  rw [← h, decodeTableWord]
  cases decode (BitVec.ofNat 16 (x % 2 ^ 16)) <;> simp

theorem count_lt_eq_min (m b : Nat) : Nat.count (· < m) b = min m b := by
  induction b with
  | zero => simp
  | succ b ih => rw [Nat.count_succ, ih]; split <;> omega

/-- Among n blocks of b numbers, where block i keeps those at offsets below f i, min (f i) b remain of each. -/
theorem count_mod_lt_div {b : Nat} (hb : 0 < b) (f : Nat → Nat) (n : Nat) :
    Nat.count (fun x => x % b < f (x / b)) (b * n) = ∑ i ∈ Finset.range n, min (f i) b := by
  induction n with
  | zero => simp
  | succ n ih =>
    have hblock : Nat.count (fun x => (b * n + x) % b < f ((b * n + x) / b)) b = Nat.count (· < f n) b := by
      simp only [Nat.count_eq_card_filter_range]
      congr 1
      refine Finset.filter_congr fun x hx => ?_
      have hx : x < b := Finset.mem_range.1 hx
      rw [Nat.mul_add_mod, Nat.mod_eq_of_lt hx, Nat.mul_add_div hb, Nat.div_eq_of_lt hx, Nat.add_zero]
    rw [Nat.mul_succ, Nat.count_add, ih, hblock, count_lt_eq_min, Finset.sum_range_succ]

/-- The words that are commands, opcode by opcode. -/
theorem countP_decodeTableWord :
    (List.range 65536).countP (fun x => (decodeTableWord 16 x).isSome) = 1795 := by
  calc (List.range 65536).countP (fun x => (decodeTableWord 16 x).isSome)
      = Nat.count (fun x => x % 4096 < commandsUnder (x / 4096)) (4096 * 16) :=
        List.countP_congr fun x hx => by simpa using decodeTableWord_isSome_iff (List.mem_range.1 hx)
    _ = ∑ op ∈ Finset.range 16, min (commandsUnder op) 4096 := count_mod_lt_div (by omega) commandsUnder 16
    _ = 1795 := by decide

end Sys2Proof
end

section
/-! SUPPORT. The six rows of the opcode table, and the decoder on each of them (30_encoding.md R58). -/

namespace Sys2Proof

section Rows

variable (v : Word)

theorem meets_nop_row : v &&& 0xFFFF#16 = 0x0000#16 ↔ v.toNat / 4096 = 0 ∧ v.toNat % 4096 < 1 :=
  and_mask_eq_iff v 0 0 (by omega) (by omega)

theorem meets_quant_row : v &&& 0xFFFE#16 = 0x1000#16 ↔ v.toNat / 4096 = 1 ∧ v.toNat % 4096 < 2 :=
  and_mask_eq_iff v 1 1 (by omega) (by omega)

theorem meets_dbpos_row : v &&& 0xFE00#16 = 0x2000#16 ↔ v.toNat / 4096 = 2 ∧ v.toNat % 4096 < 512 :=
  and_mask_eq_iff v 9 2 (by omega) (by omega)

theorem meets_dbneg_row : v &&& 0xFE00#16 = 0x3000#16 ↔ v.toNat / 4096 = 3 ∧ v.toNat % 4096 < 512 :=
  and_mask_eq_iff v 9 3 (by omega) (by omega)

theorem meets_dbinit_row : v &&& 0xFF00#16 = 0x4000#16 ↔ v.toNat / 4096 = 4 ∧ v.toNat % 4096 < 256 :=
  and_mask_eq_iff v 8 4 (by omega) (by omega)

theorem meets_dbpeek_row : v &&& 0xFE00#16 = 0x5000#16 ↔ v.toNat / 4096 = 5 ∧ v.toNat % 4096 < 512 :=
  and_mask_eq_iff v 9 5 (by omega) (by omega)

end Rows

/-- A word that meets no row is illegal: a command's opcode and low bits meet the row of that opcode. -/
theorem decode_illegal_of_meets_no_row {v : Word} (hnop : v &&& 0xFFFF#16 ≠ 0x0000#16)
    (hquant : v &&& 0xFFFE#16 ≠ 0x1000#16) (hdbpos : v &&& 0xFE00#16 ≠ 0x2000#16)
    (hdbneg : v &&& 0xFE00#16 ≠ 0x3000#16) (hdbinit : v &&& 0xFF00#16 ≠ 0x4000#16)
    (hdbpeek : v &&& 0xFE00#16 ≠ 0x5000#16) : ∃ why, decode v = .illegal why := by
  cases hd : decode v with
  | illegal why => exact ⟨why, rfl⟩
  | instr i =>
    have hlow := (exists_decode_instr_iff v).1 ⟨i, hd⟩
    match hop : v.toNat / 4096, hlow with
    | 0, hlow => exact absurd ((meets_nop_row v).2 ⟨hop, hlow⟩) hnop
    | 1, hlow => exact absurd ((meets_quant_row v).2 ⟨hop, hlow⟩) hquant
    | 2, hlow => exact absurd ((meets_dbpos_row v).2 ⟨hop, hlow⟩) hdbpos
    | 3, hlow => exact absurd ((meets_dbneg_row v).2 ⟨hop, hlow⟩) hdbneg
    | 4, hlow => exact absurd ((meets_dbinit_row v).2 ⟨hop, hlow⟩) hdbinit
    | 5, hlow => exact absurd ((meets_dbpeek_row v).2 ⟨hop, hlow⟩) hdbpeek
    | op + 6, hlow => exact absurd hlow (Nat.not_lt_zero _)

/-- Settles O3: each row in numbers picks its branch of `decode_eq`, a word on no row is no command, and the commands
are counted by opcode. -/
theorem decoderFollowsOpcodeTable : Obligations.DecoderFollowsOpcodeTable := by
  refine ⟨fun v => ⟨fun h => ?nop, fun h => ?quant, fun h => ?dbpos, fun h => ?dbneg, fun h => ?dbinit,
    fun h => ?dbpeek, decode_illegal_of_meets_no_row⟩, countP_decodeTableWord⟩
  case nop =>
    obtain ⟨hop, hlow⟩ := (meets_nop_row v).1 h
    simp [decode_eq, hop, Nat.lt_one_iff.1 hlow]
  case quant =>
    obtain ⟨hop, hlow⟩ := (meets_quant_row v).1 h
    simp [decode_eq, hop, Nat.div_eq_of_lt hlow, bitAt_eq_getLsbD, widthOfBit]
  case dbpos =>
    obtain ⟨hop, hlow⟩ := (meets_dbpos_row v).1 h
    simp [decode_eq, hop, Nat.div_eq_of_lt hlow, bitAt_eq_getLsbD]
  case dbneg =>
    obtain ⟨hop, hlow⟩ := (meets_dbneg_row v).1 h
    simp [decode_eq, hop, Nat.div_eq_of_lt hlow, bitAt_eq_getLsbD]
  case dbinit =>
    obtain ⟨hop, hlow⟩ := (meets_dbinit_row v).1 h
    simp [decode_eq, hop, Nat.div_eq_of_lt hlow]
  case dbpeek =>
    obtain ⟨hop, hlow⟩ := (meets_dbpeek_row v).1 h
    simp [decode_eq, hop, Nat.div_eq_of_lt hlow, bitAt_eq_getLsbD]

end Sys2Proof
end

section
/-! SUPPORT. The command cycle as a step, the illegal words, NOP, and what a failing command leaves alone
(40_command_cycle.md R63, R66 to R68). -/

namespace Sys2Proof

/-- A word is no command if and only if its low 12 bits are beyond those its opcode allows. -/
theorem exists_decode_illegal_iff (v : Word) :
    (∃ why, decode v = .illegal why) ↔ commandsUnder (v.toNat / 4096) ≤ v.toNat % 4096 := by
  rw [← not_lt, ← exists_decode_instr_iff]
  cases decode v <;> simp

/-- The reserved opcodes have no command (30_encoding.md R59). -/
theorem commandsUnder_of_six_le {op : Nat} (h : 6 ≤ op) : commandsUnder op = 0 := by
  match op, h with
  | _ + 6, _ => rfl

namespace Machine

/-- Settles O5: the step is the command cycle of the word, and the decoder's answer picks the cycle's branch. -/
theorem stepRunsDecodedCommand : Obligations.StepRunsDecodedCommand := by
  intro s v rest hlegal hbus
  have hcycle : step s = issue v { s with bus := rest } := step_cmdWrite hlegal hbus
  exact ⟨fun i hi => hcycle.trans (issue_instr hi _), fun why hwhy => hcycle.trans (issue_illegal hwhy _)⟩

/-- Settles O6: a reserved opcode allows no low bits, and a reserved bit is worth more than every number its format
allows, so the word is illegal. -/
theorem illegalWordOnlyReports : Obligations.IllegalWordOnlyReports := by
  intro s v rest hlegal hbus hreserved
  have hbeyond : commandsUnder (v.toNat / 4096) ≤ v.toNat % 4096 := by
    rcases hreserved with hop | ⟨hop, hbits⟩ | ⟨hop, hbits⟩ | ⟨hop, hbits⟩ | ⟨hop, hbits⟩ | ⟨hop, hbits⟩ | ⟨hop, hbits⟩
    · rw [commandsUnder_of_six_le hop]
      exact Nat.zero_le _
    all_goals
      rw [hop, commandsUnder]
      omega
  obtain ⟨why, hwhy⟩ := (exists_decode_illegal_iff v).2 hbeyond
  exact (stepRunsDecodedCommand s v rest hlegal hbus).2 why hwhy

/-- Settles O7: NOP only completes, and opcode 0 allows no low bits but 0. -/
theorem nopOnlyClearsStatus : Obligations.NopOnlyClearsStatus := by
  refine ⟨fun s => congrArg Host.Outcome.next (complete_eq s), by decide, fun v hop hne => ?_⟩
  have hpos : v.toNat ≠ 0 := fun h => hne (BitVec.eq_of_toNat_eq h)
  rw [exists_decode_illegal_iff, Nat.div_eq_of_lt hop, Nat.mod_eq_of_lt hop]
  exact Nat.one_le_iff_ne_zero.2 hpos

/-- A command that does not end in OK has only raised a code: every other outcome completes. -/
theorem exec_eq_raise_of_status_ne_ok {i : Instr} {s t : State} (h : exec i s = .next t)
    (hstatus : t.status ≠ 0x0000#16) : ∃ c, t = raise c s := by
  rcases exec_cases h with hraise | ⟨w, b, -, -, rfl⟩ | ⟨d, raw, n, p, -, -, -, -, rfl⟩ | ⟨n, -, -, rfl⟩ |
    ⟨d, n, -, -, rfl⟩
  · exact hraise
  all_goals exact absurd statusWord_ok hstatus

/-- Settles O8: an illegal word only raises, and so does a command that does not end in OK. -/
theorem failedCommandChangesOnlyCmdAndStatus : Obligations.FailedCommandChangesOnlyCmdAndStatus := by
  intro s t v rest hlegal hbus hstep hstatus
  rw [step_cmdWrite hlegal hbus] at hstep
  rcases issue_cases hstep with ⟨i, -, hexec⟩ | ⟨why, -, rfl⟩
  · obtain ⟨c, rfl⟩ := exec_eq_raise_of_status_ne_ok hexec hstatus
    rfl
  · rfl

end Machine

end Sys2Proof
end

section
/-! SUPPORT. The frame of every command: what each operation on the state may write, and from that what each command
may (40_command_cycle.md R65). -/

namespace Sys2Proof.Machine

/-- An offset of the window is one of the two bytes of its slot (10_state.md R16). -/
theorem eq_offset_or_succ_of_lt {o : Nat} (ho : o < 32) :
    o = (Reg.ofOffset o).offset ∨ o = (Reg.ofOffset o).offset + 1 := by
  have hall : ∀ j < 32, j = (Reg.ofOffset j).offset ∨ j = (Reg.ofOffset j).offset + 1 := by decide
  exact hall o ho

/-- The bytes outside the registers written follow from the registers: each is a byte of its slot's register. -/
theorem windowByte_eq_of_getReg_eq {regs : List Reg} {s t : State} (hregs : ∀ r, r ∉ regs → t.getReg r = s.getReg r)
    {o : Nat} (ho : o < 32) (hout : ∀ r ∈ regs, o ≠ r.offset ∧ o ≠ r.offset + 1) :
    t.windowByte o = s.windowByte o := by
  have hslot : Reg.ofOffset o ∉ regs := fun hmem =>
    (eq_offset_or_succ_of_lt ho).elim (hout _ hmem).1 (hout _ hmem).2
  rw [State.windowByte, State.windowByte, hregs _ hslot]

/-- Where the debounce file and the fields outside the registers stay, only the registers are left to compare. -/
theorem writesOnly_of_units_eq {regs : List Reg} (unit : Option Nat) {s t : State}
    (hregs : ∀ r, r ∉ regs → t.getReg r = s.getReg r) (hunits : t.units = s.units) (hcfg : t.cfg = s.cfg)
    (hbus : t.bus = s.bus) (hread : t.lastRead = s.lastRead) (hfree : t.freeCount = s.freeCount) :
    WritesOnly regs unit s t :=
  ⟨hregs, fun _ ho hout => windowByte_eq_of_getReg_eq hregs ho hout,
    fun m _ => by simp [State.cnt, State.settled, hunits], congrArg List.length hunits, hcfg, hbus, hread, hfree⟩

theorem WritesOnly.trans {regs : List Reg} {unit : Option Nat} {s t u : State} (hst : WritesOnly regs unit s t)
    (htu : WritesOnly regs unit t u) : WritesOnly regs unit s u := by
  obtain ⟨hregs, hbytes, hunits, hlen, hcfg, hbus, hread, hfree⟩ := hst
  obtain ⟨hregs', hbytes', hunits', hlen', hcfg', hbus', hread', hfree'⟩ := htu
  exact ⟨fun r hr => (hregs' r hr).trans (hregs r hr), fun o ho hout => (hbytes' o ho hout).trans (hbytes o ho hout),
    fun m hm => ⟨(hunits' m hm).1.trans (hunits m hm).1, (hunits' m hm).2.trans (hunits m hm).2⟩,
    hlen'.trans hlen, hcfg'.trans hcfg, hbus'.trans hbus, hread'.trans hread, hfree'.trans hfree⟩

/-! What the operations on the state write. `raise` and `complete` are writes of STATUS. -/

section Operations

variable {regs : List Reg} (unit : Option Nat) (s : State)

theorem setReg_writesOnly {r : Reg} (hr : r ∈ regs) (v : Word) : WritesOnly regs unit s (s.setReg r v) :=
  writesOnly_of_units_eq unit (fun _ hr' => getReg_setReg_other s v fun heq => hr' (heq ▸ hr))
    (setReg_units s r v) (setReg_cfg s r v) (setReg_bus s r v) (setReg_lastRead s r v) (setReg_freeCount s r v)

theorem setUnit_writesOnly (n : Nat) (c : Word) (f : Bool) : WritesOnly regs (some n) s (s.setUnit n c f) := by
  have hregs : ∀ r, (s.setUnit n c f).getReg r = s.getReg r := fun r => by cases r <;> rfl
  refine ⟨fun r _ => hregs r, fun o ho hout => windowByte_eq_of_getReg_eq (fun r _ => hregs r) ho hout,
    fun m hm => ?_, length_setUnit s n c f, rfl, rfl, rfl, rfl⟩
  have hne : n ≠ m := fun heq => hm (congrArg some heq)
  exact ⟨cnt_setUnit_other c f hne, settled_setUnit_other c f hne⟩

theorem report_writesOnly (hcnt : .dbcnt ∈ regs) (hflags : .dbflags ∈ regs) (n : Nat) (d : Bool) (c : Word)
    (settled evt : Bool) : WritesOnly regs unit s (report n d c settled evt s) :=
  (setReg_writesOnly unit s hcnt c).trans (setReg_writesOnly unit _ hflags _)

theorem writeQuant_writesOnly (hquant : [.qsel, .reload, .ach0, .ach1, .ach2, .errm0, .errm1] ⊆ regs) (b : Cand) :
    WritesOnly regs unit s (writeQuant b s) := by
  refine writesOnly_of_units_eq unit (fun r hr => ?_) rfl rfl rfl rfl rfl
  have hother := mt (@hquant r) hr
  revert hother
  cases r <;> simp [State.getReg]

end Operations

/-- The registers that the cycle of a command may write: CMD, the results of its unit and STATUS
(40_command_cycle.md R65). -/
def writtenRegs : Instr → List Reg
  | .nop => [.cmd, .status]
  | .quant _ => [.cmd, .qsel, .reload, .ach0, .ach1, .ach2, .errm0, .errm1, .status]
  | .dbpos _ _ => [.cmd, .dbcnt, .dbflags, .status]
  | .dbneg _ _ => [.cmd, .dbcnt, .dbflags, .status]
  | .dbinit _ => [.cmd, .status]
  | .dbpeek _ _ => [.cmd, .dbcnt, .dbflags, .status]

theorem cmd_mem_writtenRegs (i : Instr) : .cmd ∈ writtenRegs i := by cases i <;> simp [writtenRegs]

theorem status_mem_writtenRegs (i : Instr) : .status ∈ writtenRegs i := by cases i <;> simp [writtenRegs]

/-- The two polls write the same registers and the unit they name. -/
theorem writtenRegs_pollCmd (d raw : Bool) (n : Nat) :
    writtenRegs (pollCmd d raw n) = [.cmd, .dbcnt, .dbflags, .status] := by
  cases d <;> rfl

theorem namedUnit_pollCmd (d raw : Bool) (n : Nat) : namedUnit (pollCmd d raw n) = some n := by
  cases d <;> rfl

/-- A command writes its registers and the unit it names: each outcome of `exec_cases` is a chain of operations that
do, the last of them a write of STATUS. -/
theorem exec_writesOnly {i : Instr} {s t : State} (h : exec i s = .next t) :
    WritesOnly (writtenRegs i) (namedUnit i) s t := by
  have hstatus (u : State) (c : Code) : WritesOnly (writtenRegs i) (namedUnit i) u (raise c u) :=
    setReg_writesOnly _ u (status_mem_writtenRegs i) _
  rcases exec_cases h with ⟨c, rfl⟩ | ⟨w, b, rfl, -, rfl⟩ | ⟨d, raw, n, p, rfl, -, -, -, rfl⟩ | ⟨n, rfl, -, rfl⟩ |
    ⟨d, n, rfl, -, rfl⟩
  · exact hstatus s c
  · exact (writeQuant_writesOnly _ s (by simp [writtenRegs]) b).trans (hstatus _ .ok)
  · rw [namedUnit_pollCmd, writtenRegs_pollCmd] at hstatus ⊢
    exact ((setUnit_writesOnly s n _ _).trans (report_writesOnly _ _ (by simp) (by simp) n d _ _ _)).trans
      (hstatus _ .ok)
  · exact (setUnit_writesOnly s n _ _).trans (hstatus _ .ok)
  · exact (report_writesOnly _ s (by simp [writtenRegs]) (by simp [writtenRegs]) n d _ _ _).trans (hstatus _ .ok)

/-- The cycle of a command writes CMD and then what the command writes. -/
theorem issue_writesOnly_of_instr {v : Word} {i : Instr} {s t : State} (hi : decode v = .instr i)
    (h : issue v s = .next t) : WritesOnly (writtenRegs i) (namedUnit i) s t := by
  rw [issue_instr hi] at h
  exact (setReg_writesOnly _ s (cmd_mem_writtenRegs i) v).trans (exec_writesOnly h)

/-- The cycle of an illegal word writes CMD and STATUS. -/
theorem issue_writesOnly_of_illegal {v : Word} {why : Illegal} {s t : State} (hwhy : decode v = .illegal why)
    (h : issue v s = .next t) : WritesOnly [.cmd, .status] none s t := by
  rw [issue_illegal hwhy] at h
  cases h
  exact (setReg_writesOnly none s (r := .cmd) (by simp) v).trans (setReg_writesOnly none _ (r := .status) (by simp) _)

/-- Settles O11: the frame of the command cycle, read off for each command. -/
theorem commandsWriteOnlyTheirOwnState : Obligations.CommandsWriteOnlyTheirOwnState := by
  intro s t v rest hlegal hbus hstep
  rw [step_cmdWrite hlegal hbus] at hstep
  have hcmd : t.cmd = v := by
    obtain ⟨t', hissue, hcmd, -⟩ := issue_total v { s with bus := rest }
    cases hissue.symm.trans hstep
    exact hcmd
  refine ⟨hcmd, fun w hi => ?quant, fun d raw n hi => ?poll, fun d n hi => ?dbpeek, fun n hi => ?dbinit,
    fun hi => ?nop, fun why hwhy => issue_writesOnly_of_illegal hwhy hstep⟩
  case poll =>
    rw [← writtenRegs_pollCmd d raw n, ← namedUnit_pollCmd d raw n]
    exact issue_writesOnly_of_instr hi hstep
  all_goals exact issue_writesOnly_of_instr hi hstep

end Sys2Proof.Machine
end

section
/-! SUPPORT. The counts of the clocks in the spec's terms: at least 1, nonincreasing in the clock, exact where the request
is, and what the slowest eligible clock's count decides (41_quantizer.md R80 to R83). -/

namespace Sys2Proof

/-- A divisor that fits counts at least once: 2a + b is at least 2b (41_quantizer.md R80). -/
theorem one_le_roundHalfUp {a b : Nat} (hb : 0 < b) (hle : b ≤ a) : 1 ≤ roundHalfUp a b :=
  Nat.div_pos (by omega) (by omega)

/-- A greater divisor rounds to no greater count: r + 1 is reached exactly where (2r + 1)·b is at most 2a
(41_quantizer.md R83). -/
theorem roundHalfUp_le_of_divisor_le (a : Nat) {b b' : Nat} (hb : 0 < b) (hle : b ≤ b') :
    roundHalfUp a b' ≤ roundHalfUp a b := by
  obtain ⟨hlo, -⟩ := roundHalfUp_bounds a (hb.trans_le hle)
  cases hr : roundHalfUp a b' with
  | zero => exact Nat.zero_le _
  | succ r =>
    rw [hr] at hlo
    have hreach : (2 * r + 1) * b ≤ (2 * r + 1) * b' := Nat.mul_le_mul_left _ hle
    rw [roundHalfUp, Nat.le_div_iff_mul_le (by omega)]
    linarith

namespace Machine

/-- Settles O14: every tick of a legal table is positive. -/
theorem eligibleClockCountsAtLeastOne : Obligations.EligibleClockCountsAtLeastOne :=
  fun _ _ _ hlegal hk helig => one_le_roundHalfUp (tickOf_range hlegal hk).1 helig

section Counts

variable {c : Config} {iq m k : Nat}

/-- For an eligible clock validity is the upper bound alone (41_quantizer.md R75, R80). -/
theorem validClock_iff_of_eligible (hlegal : c.legal = true) (hk : k < c.nclk) (helig : tickOf c k ≤ iq) :
    ValidClock c iq m k ↔ countOf c iq k ≤ m :=
  ⟨fun ⟨_, _, _, hle⟩ => hle, fun hle => ⟨hk, helig, eligibleClockCountsAtLeastOne c iq k hlegal hk helig, hle⟩⟩

/-- No clock is valid for a request below the first tick (41_quantizer.md R78). -/
theorem tickOf_zero_le_of_validClock (hlegal : c.legal = true) (hvalid : ValidClock c iq m k) : tickOf c 0 ≤ iq := by
  obtain ⟨hk, helig, -, -⟩ := hvalid
  exact (tickOf_le hlegal (Nat.zero_le k) hk).trans helig

/-- The error is at most half the tick (41_quantizer.md R81). -/
theorem errorOf_le_half_tick (hlegal : c.legal = true) (iq : Nat) (hk : k < c.nclk) :
    errorOf c iq k ≤ tickOf c k / 2 := by
  have hhalf := absDiff_roundHalfUp_le iq (tickOf_range hlegal hk).1
  rwa [absDiff_eq] at hhalf

/-- A clock that divides the request within the width is valid with error 0 (41_quantizer.md R82). -/
theorem validClock_of_exact (hlegal : c.legal = true) (hk : k < c.nclk) {n : Nat} (hpos : 1 ≤ n) (hle : n ≤ m)
    (hexact : iq = n * tickOf c k) : ValidClock c iq m k ∧ errorOf c iq k = 0 := by
  subst hexact
  have hcount : countOf c (n * tickOf c k) k = n := roundHalfUp_mul n (tickOf_range hlegal hk).1
  refine ⟨⟨hk, Nat.le_mul_of_pos_left _ hpos, hcount.symm ▸ hpos, hcount.symm ▸ hle⟩, ?_⟩
  rw [errorOf, intervalOf, hcount, Nat.sub_self]

/-- Counts do not increase with the clock index (41_quantizer.md R83). -/
theorem countOf_le_of_le (hlegal : c.legal = true) (iq : Nat) {j : Nat} (hjk : j ≤ k) (hk : k < c.nclk) :
    countOf c iq k ≤ countOf c iq j :=
  roundHalfUp_le_of_divisor_le iq (tickOf_range hlegal (hjk.trans_lt hk)).1 (tickOf_le hlegal hjk hk)

/-- Some clock is valid exactly when the slowest eligible one is: its count is the least (41_quantizer.md R83). -/
theorem exists_validClock_iff_of_slowest (hlegal : c.legal = true) (hk : k < c.nclk) (helig : tickOf c k ≤ iq)
    (hslowest : ∀ j, j < c.nclk → tickOf c j ≤ iq → j ≤ k) :
    (∃ j, ValidClock c iq m j) ↔ countOf c iq k ≤ m := by
  constructor
  · rintro ⟨j, hj, hjelig, -, hjle⟩
    exact (countOf_le_of_le hlegal iq (hslowest j hj hjelig) hk).trans hjle
  · exact fun hle => ⟨k, (validClock_iff_of_eligible hlegal hk helig).2 hle⟩

end Counts

end Machine

end Sys2Proof
end

section
/-! SUPPORT. The outcomes of QUANT, each with the condition on the request under which it comes, and the claims on them
(41_quantizer.md R77 to R84). -/

namespace Sys2Proof.Machine

/-- Clock k with its count, interval, error and direction for iq quanta (41_quantizer.md R76). -/
def candOf (c : Config) (iq k : Nat) : Cand :=
  { k := k, c := countOf c iq k, a := intervalOf c iq k, e := errorOf c iq k,
    isOver := decide (iq < intervalOf c iq k) }

/-- QSEL.CLKSEL of the word built from its fields (10_state.md R21). -/
theorem qselWord_clk (isOver : Bool) {k : Nat} (hk : k < 16) : (qselWord isOver k).toNat % 16 = k := by
  have hover := isOver.toNat_le
  rw [qselWord_eq isOver hk, BitVec.toNat_ofNat]
  omega

/-- A clock of a legal table fits the field CLKSEL (00_scope.md R6). -/
theorem lt_sixteen_of_lt_nclk {c : Config} (hlegal : c.legal = true) (hk : k < c.nclk) : k < 16 := by
  obtain ⟨-, hnclk, -⟩ := c.bounds_of_legal hlegal
  exact hk.trans_le hnclk

section Outcomes

variable {w : Width} {s t : State} {k : Nat}

/-- Everything QUANT can do, with the failures as updates of STATUS and a success by its clock. -/
theorem exec_quant_cases (w : Width) (s : State) :
    (requestOf s < tickOf s.cfg 0 ∧ exec (.quant w) s = .next { s with status := 0x0012#16 }) ∨
    (tickOf s.cfg 0 ≤ requestOf s ∧ (¬ ∃ k, ValidClock s.cfg (requestOf s) (2 ^ w.bits - 1) k) ∧
      exec (.quant w) s = .next { s with status := 0x0011#16 }) ∨
    (∃ k, tickOf s.cfg 0 ≤ requestOf s ∧ SelectedClock s.cfg (requestOf s) (2 ^ w.bits - 1) k ∧
      exec (.quant w) s = .next (complete (writeQuant (candOf s.cfg (requestOf s) k) s))) := by
  rcases execQuant_cases w s with ⟨hlt, hexec⟩ | ⟨hle, hnone, hexec⟩ | ⟨b, hle, hsel, hb, hexec⟩
  · exact .inl ⟨hlt, by rw [exec, hexec, raise_eq, statusWord_subTick]⟩
  · exact .inr (.inl ⟨hle, hnone, by rw [exec, hexec, raise_eq, statusWord_outOfRange]⟩)
  · exact .inr (.inr ⟨b.k, hle, hsel, hexec.trans (by rw [candOf, ← hb])⟩)

/-- A next state in which STATUS is another word is another outcome. -/
theorem next_ne_next_of_status (h : s.status ≠ t.status) :
    (Host.Outcome.next s : Host.Outcome State Fault Refusal) ≠ .next t :=
  fun heq => h (congrArg State.status (Host.Outcome.next.inj heq))

/-- SUBTICK is the outcome of the requests below the first tick (41_quantizer.md R78). -/
theorem exec_quant_eq_subTick_iff :
    exec (.quant w) s = .next { s with status := 0x0012#16 } ↔ requestOf s < tickOf s.cfg 0 := by
  rcases exec_quant_cases w s with ⟨hlt, hexec⟩ | ⟨hle, -, hexec⟩ | ⟨k, hle, -, hexec⟩ <;> rw [hexec]
  · exact iff_of_true rfl hlt
  · exact iff_of_false (next_ne_next_of_status (by simp)) hle.not_gt
  · exact iff_of_false (next_ne_next_of_status (by simp)) hle.not_gt

/-- OUT_OF_RANGE is the outcome of the requests from the first tick on that no clock is valid for
(41_quantizer.md R78). -/
theorem exec_quant_eq_outOfRange_iff :
    exec (.quant w) s = .next { s with status := 0x0011#16 } ↔
      tickOf s.cfg 0 ≤ requestOf s ∧ ¬ ∃ k, ValidClock s.cfg (requestOf s) (2 ^ w.bits - 1) k := by
  rcases exec_quant_cases w s with ⟨hlt, hexec⟩ | ⟨hle, hnone, hexec⟩ | ⟨k, -, hsel, hexec⟩ <;> rw [hexec]
  · exact iff_of_false (next_ne_next_of_status (by simp)) fun h => hlt.not_ge h.1
  · exact iff_of_true rfl ⟨hle, hnone⟩
  · exact iff_of_false (next_ne_next_of_status (by simp)) fun h => h.2 ⟨k, hsel.1⟩

/-- Where a clock is valid for a request from the first tick on, QUANT writes the selected one (41_quantizer.md R77). -/
theorem exec_quant_of_validClock (hle : tickOf s.cfg 0 ≤ requestOf s)
    (hvalid : ValidClock s.cfg (requestOf s) (2 ^ w.bits - 1) k) :
    ∃ k', SelectedClock s.cfg (requestOf s) (2 ^ w.bits - 1) k' ∧
      exec (.quant w) s = .next (complete (writeQuant (candOf s.cfg (requestOf s) k') s)) := by
  rcases exec_quant_cases w s with ⟨hlt, -⟩ | ⟨-, hnone, -⟩ | ⟨k', -, hsel, hexec⟩
  · exact absurd hle hlt.not_ge
  · exact absurd ⟨k, hvalid⟩ hnone
  · exact ⟨k', hsel, hexec⟩

/-- The selected clock is the one QUANT writes: there is only one (41_quantizer.md R77). -/
theorem exec_quant_of_selectedClock (hlegal : s.cfg.legal = true)
    (hsel : SelectedClock s.cfg (requestOf s) (2 ^ w.bits - 1) k) :
    exec (.quant w) s = .next (complete (writeQuant (candOf s.cfg (requestOf s) k) s)) := by
  obtain ⟨k', hsel', hexec⟩ := exec_quant_of_validClock (tickOf_zero_le_of_validClock hlegal hsel.1) hsel.1
  rwa [selectedClock_unique hsel hsel']

/-- A QUANT that ends in OK has written the selected clock. -/
theorem exists_selectedClock_of_exec_quant_ok (hexec : exec (.quant w) s = .next t) (hok : t.status = 0x0000#16) :
    ∃ k, SelectedClock s.cfg (requestOf s) (2 ^ w.bits - 1) k ∧
      t = complete (writeQuant (candOf s.cfg (requestOf s) k) s) := by
  rcases exec_quant_cases w s with ⟨-, h⟩ | ⟨-, -, h⟩ | ⟨k, -, hsel, h⟩ <;> cases h.symm.trans hexec
  · exact absurd hok (by simp)
  · exact absurd hok (by simp)
  · exact ⟨k, hsel, rfl⟩

/-- Once QUANT has written clock k, QSEL.CLKSEL is k: a clock of a legal table fits the field (10_state.md R21). -/
theorem clk_writeQuant_candOf {c : Config} (hlegal : c.legal = true) (iq : Nat) (hk : k < c.nclk) (s : State) :
    (complete (writeQuant (candOf c iq k) s)).qsel.toNat % 16 = k :=
  qselWord_clk _ (lt_sixteen_of_lt_nclk hlegal hk)

end Outcomes

/-- Settles O15: the registers of `writeQuant` for the selected clock, in numbers. -/
theorem quantWritesSelectedClock : Obligations.QuantWritesSelectedClock := by
  intro w s k hlegal hsel
  have hover : (decide (requestOf s < intervalOf s.cfg (requestOf s) k)).toNat =
      if requestOf s < intervalOf s.cfg (requestOf s) k then 1 else 0 := by
    by_cases h : requestOf s < intervalOf s.cfg (requestOf s) k <;> simp only [h] <;> rfl
  have hqsel := qselWord_eq (decide (requestOf s < intervalOf s.cfg (requestOf s) k))
    (lt_sixteen_of_lt_nclk hlegal hsel.1.1)
  rw [hover] at hqsel
  rw [exec_quant_of_selectedClock hlegal hsel, complete_eq, writeQuant, candOf, hqsel]
  simp [wordOf, Nat.div_div_eq_div_mul]

/-- Settles O16: each failure's condition, an interval of 0 being below every tick of a legal table. -/
theorem quantFailureCodes : Obligations.QuantFailureCodes := by
  intro w s hlegal
  refine ⟨fun hlt => ⟨exec_quant_eq_subTick_iff.2 hlt, by decide⟩, fun hhi hlo => exec_quant_eq_subTick_iff.2 ?_,
    fun hle hnone => ⟨exec_quant_eq_outOfRange_iff.2 ⟨hle, hnone⟩, by decide⟩⟩
  have hrequest : requestOf s = 0 := by simp [requestOf, hhi, hlo]
  rw [hrequest]
  exact (tickOf_range hlegal (s.cfg.bounds_of_legal hlegal).1).1

/-- Settles O18: ERRM holds the selected clock's error, which half a tick bounds and two words hold. -/
theorem quantErrorIsAtMostHalfTick : Obligations.QuantErrorIsAtMostHalfTick := by
  intro w s t hlegal hexec hok
  obtain ⟨k, ⟨⟨hk, -⟩, -⟩, rfl⟩ := exists_selectedClock_of_exec_quant_ok hexec hok
  have herror := errorOf_le_half_tick hlegal (requestOf s) hk
  rw [clk_writeQuant_candOf hlegal _ hk]
  have herrm : words2 (wordOf 1 (errorOf s.cfg (requestOf s) k)) (wordOf 0 (errorOf s.cfg (requestOf s) k)) =
      errorOf s.cfg (requestOf s) k :=
    words2_wordOf (by have := (tickOf_range hlegal hk).2; omega)
  exact herrm.trans_le herror

/-- Settles O20: the clock that divides the request is valid with error 0, so the selected clock has error 0 too, and an
earlier clock that divides the request would have been selected before it. -/
theorem quantSucceedsOnExactRequests : Obligations.QuantSucceedsOnExactRequests := by
  intro w s n k hlegal hk hpos hle hexact
  obtain ⟨hvalid, hzero⟩ := validClock_of_exact hlegal hk hpos hle hexact
  obtain ⟨k', ⟨⟨hk', helig, hpos', hle'⟩, hleast⟩, hexec⟩ :=
    exec_quant_of_validClock (tickOf_zero_le_of_validClock hlegal hvalid) hvalid
  have hzero' : errorOf s.cfg (requestOf s) k' = 0 := Nat.le_zero.1 (hzero ▸ (hleast k hvalid).1)
  have hexact' : requestOf s = countOf s.cfg (requestOf s) k' * tickOf s.cfg k' := by
    rw [errorOf, intervalOf] at hzero'
    omega
  have hclk := clk_writeQuant_candOf hlegal (requestOf s) hk' s
  refine ⟨_, hexec, statusWord_ok, ?errm0, ?errm1, ?exact, hclk.symm ▸ hk', fun j n' hj hpos'' hle'' hother => ?first⟩
  case errm0 => exact congrArg (wordOf 0) hzero'
  case errm1 => exact congrArg (wordOf 1) hzero'
  case exact => exact ⟨_, hpos', hle', by rw [hclk]; exact hexact'⟩
  case first =>
    rw [hclk] at hj
    obtain ⟨hjvalid, hjzero⟩ := validClock_of_exact hlegal (hj.trans hk') hpos'' hle'' hother
    exact absurd ((hleast j hjvalid).2 hj) (by rw [hjzero]; exact Nat.not_lt_zero _)

/-- Settles O21: the slowest eligible clock decides whether some clock is valid. -/
theorem slowestEligibleClockDecidesOutOfRange : Obligations.SlowestEligibleClockDecidesOutOfRange := by
  refine ⟨fun c iq j k hlegal hjk hk => countOf_le_of_le hlegal iq hjk hk, fun w s k hlegal hle hk helig hslowest => ?_⟩
  rw [exec_quant_eq_outOfRange_iff, exists_validClock_iff_of_slowest hlegal hk helig hslowest, not_le]
  exact and_iff_right hle

/-- The pure function reads no more of the configuration than TICK and QPU (41_quantizer.md R84). -/
theorem quantize_congr {c c' : Config} (htick : c.tick = c'.tick) (hqpu : c.qpu = c'.qpu) (i : Nat) (w : Width) :
    quantize c i w = quantize c' i w := by
  rw [quantize, quantize, htick, hqpu]

/-- Settles O22: the answer of the pure function is the same in both states, and it alone fixes STATUS and the results. -/
theorem quantDependsOnlyOnRequestAndTable : Obligations.QuantDependsOnlyOnRequestAndTable := by
  intro w s s' hhi hlo htick hqpu
  have hintv : s.intv = s'.intv := by rw [State.intv, State.intv, hhi, hlo]
  have hsame : quantize s'.cfg s'.intv w = quantize s.cfg s.intv w := by
    rw [← hintv, quantize_congr htick hqpu]
  cases hanswer : quantize s.cfg s.intv w with
  | failed e =>
    have hfailed : statusWord e ≠ 0x0000#16 := by
      rcases quantize_failed hanswer with ⟨-, rfl⟩ | ⟨-, rfl, -⟩ <;> decide
    exact ⟨raise e s, raise e s', by simp [exec, execQuant, hanswer], by simp [exec, execQuant, hsame, hanswer], rfl,
      fun hok => absurd hok hfailed⟩
  | found b =>
    exact ⟨complete (writeQuant b s), complete (writeQuant b s'), by simp [exec, execQuant, hanswer],
      by simp [exec, execQuant, hsame, hanswer], rfl, fun _ => ⟨rfl, rfl, rfl, rfl, rfl, rfl, rfl⟩⟩

end Sys2Proof.Machine
end

section
/-! SUPPORT. The failure sets of the reference clock table (41_quantizer.md R85). -/

namespace Sys2Proof.Machine

/-- Some reference clock is valid from 1 quantum up to, and not at, m + 1/2 ticks of the slowest clock: below its tick
the finest clock counts every quantum, and from its tick on the slowest clock decides. -/
theorem reference_exists_validClock_iff {iq m : Nat} (hm : 127 ≤ m) :
    (∃ k, ValidClock Config.reference iq m k) ↔ 1 ≤ iq ∧ iq < 64 * (2 * m + 1) := by
  have hlegal : Config.reference.legal = true := by decide
  by_cases hslow : 128 ≤ iq
  · have hcount : countOf Config.reference iq 5 = (2 * iq + 128) / 256 := rfl
    rw [exists_validClock_iff_of_slowest hlegal (k := 5) (by decide) hslow fun j hj _ => Nat.le_of_lt_succ hj, hcount]
    omega
  · have hcount : countOf Config.reference iq 0 = (2 * iq + 1) / 2 := rfl
    refine ⟨fun ⟨_, hvalid⟩ => ⟨tickOf_zero_le_of_validClock hlegal hvalid, by omega⟩, fun ⟨hpos, _⟩ => ⟨0, ?_⟩⟩
    rw [validClock_iff_of_eligible hlegal (by decide) hpos, hcount]
    omega

/-- With the reference table the outcomes of QUANT, by the interval, at either width. -/
theorem exec_quant_referenceTable {s : State} (htick : s.cfg.tick = [1, 2, 4, 8, 16, 128]) (hqpu : s.cfg.qpu = 1)
    (w : Width) :
    (exec (.quant w) s = .next { s with status := 0x0012#16 } ↔ s.intv = 0) ∧
    (exec (.quant w) s = .next { s with status := 0x0011#16 } ↔ 64 * (2 * (2 ^ w.bits - 1) + 1) ≤ s.intv) ∧
    (0 < s.intv → s.intv < 64 * (2 * (2 ^ w.bits - 1) + 1) →
      ∃ t, exec (.quant w) s = .next t ∧ t.status = 0x0000#16) := by
  have hrequest : requestOf s = s.intv := by rw [← intv_mul_qpu, hqpu, Nat.mul_one]
  have hfirst : tickOf s.cfg 0 = 1 := by rw [tickOf, htick]; rfl
  have hmax : 127 ≤ 2 ^ w.bits - 1 := by cases w <;> decide
  have hvalid : (∃ k, ValidClock s.cfg s.intv (2 ^ w.bits - 1) k) ↔
      1 ≤ s.intv ∧ s.intv < 64 * (2 * (2 ^ w.bits - 1) + 1) := by
    rw [← reference_exists_validClock_iff hmax]
    simp only [ValidClock, countOf, tickOf, Config.nclk, htick, Config.reference]
  rw [exec_quant_eq_subTick_iff, exec_quant_eq_outOfRange_iff, hrequest, hfirst, hvalid]
  refine ⟨Nat.lt_one_iff, by omega, fun hpos hlt => ?_⟩
  obtain ⟨k, hk⟩ := hvalid.2 ⟨hpos, hlt⟩
  rw [← hrequest] at hk
  obtain ⟨k', -, hexec⟩ := exec_quant_of_validClock (by omega) hk
  exact ⟨_, hexec, statusWord_ok⟩

/-- Settles O23: 64 · (2 · 65535 + 1) = 8388544 and 64 · (2 · 255 + 1) = 32704. -/
theorem referenceTableFailureSets : Obligations.ReferenceTableFailureSets := fun _ htick hqpu =>
  ⟨exec_quant_referenceTable htick hqpu .w16, exec_quant_referenceTable htick hqpu .w8⟩

end Sys2Proof.Machine
end

section
/-! SUPPORT. The words of the debounce commands: the decoder's answer to each of them (30_encoding.md R55, R61). -/

namespace Sys2Proof

/-- What the decoder reads of the word with opcode op, operand bit b and index n. -/
theorem fields_of_eq_ofNat {v : Word} {op n : Nat} {b : Bool} (hv : v = BitVec.ofNat 16 (4096 * op + 256 * b.toNat + n))
    (hop : op < 16) (hn : n < 256) :
    v.toNat / 4096 = op ∧ v.toNat % 4096 / 512 = 0 ∧ v.toNat % 4096 / 256 = b.toNat ∧ bitAt v 8 = b ∧
      v.toNat % 256 = n := by
  have hb := b.toNat_le
  have hnum : v.toNat = 4096 * op + 256 * b.toNat + n := by
    rw [hv, BitVec.toNat_ofNat]
    exact Nat.mod_eq_of_lt (by omega)
  have hbit : v.toNat / 2 ^ 8 % 2 = b.toNat := by omega
  refine ⟨by omega, by omega, by omega, ?_, by omega⟩
  rw [bitAt_eq, hbit]
  cases b <;> rfl

theorem decode_encode_dbpos (raw : Bool) {n : Nat} (hn : n < 256) :
    decode (encode (.dbpos raw n)) = .instr (.dbpos raw n) := by
  obtain ⟨hop, hreserved, -, hbit, hindex⟩ :=
    fields_of_eq_ofNat (v := encode (.dbpos raw n)) (op := 2) rfl (by omega) hn
  simp [decode_eq, hop, hreserved, hbit, hindex]

theorem decode_encode_dbneg (raw : Bool) {n : Nat} (hn : n < 256) :
    decode (encode (.dbneg raw n)) = .instr (.dbneg raw n) := by
  obtain ⟨hop, hreserved, -, hbit, hindex⟩ :=
    fields_of_eq_ofNat (v := encode (.dbneg raw n)) (op := 3) rfl (by omega) hn
  simp [decode_eq, hop, hreserved, hbit, hindex]

theorem decode_encode_dbpeek (d : Bool) {n : Nat} (hn : n < 256) :
    decode (encode (.dbpeek d n)) = .instr (.dbpeek d n) := by
  obtain ⟨hop, hreserved, -, hbit, hindex⟩ :=
    fields_of_eq_ofNat (v := encode (.dbpeek d n)) (op := 5) rfl (by omega) hn
  simp [decode_eq, hop, hreserved, hbit, hindex]

theorem decode_encode_dbinit {n : Nat} (hn : n < 256) : decode (encode (.dbinit n)) = .instr (.dbinit n) := by
  obtain ⟨hop, -, hreserved, -, hindex⟩ :=
    fields_of_eq_ofNat (v := encode (.dbinit n)) (op := 4) (b := false) rfl (by omega) hn
  simp [decode_eq, hop, hreserved, hindex]

namespace Machine

theorem decode_encode_pollCmd (d raw : Bool) {n : Nat} (hn : n < 256) :
    decode (encode (pollCmd d raw n)) = .instr (pollCmd d raw n) := by
  cases d
  · exact decode_encode_dbneg raw hn
  · exact decode_encode_dbpos raw hn

end Machine

end Sys2Proof
end

section
/-! SUPPORT. The four debounce commands as updates of the state, DBFLAGS in numbers (42_debounce.md R95 to R98). -/

namespace Sys2Proof.Machine

/-- LVL as a number (42_debounce.md R92). -/
theorem toNat_settledLevel (d f : Bool) : (settledLevel d f).toNat = if f then d.toNat else 1 - d.toNat := by
  cases d <;> cases f <;> rfl

/-- A poll that runs leaves the unit as its sample says and reports it (42_debounce.md R95). -/
theorem exec_pollCmd_eq_afterPoll {d raw : Bool} {n : Nat} {s : State} {p : Polled} (hlegal : s.cfg.legal = true)
    (hn : n < s.cfg.nDb) (ht : s.thresh ≠ 0x0000#16)
    (hp : pollUnit d raw s.thresh.toNat (s.cnt n).toNat (s.settled n) = p) :
    exec (pollCmd d raw n) s = .next (afterPoll s n p.cnt p.settled
      (8 * d.toNat + 4 * (settledLevel d p.settled).toNat + 2 * p.settled.toNat + p.evt.toNat)) := by
  have hbound := Config.bounds_of_legal hlegal
  rw [exec_pollCmd, poll_ok hn (threshold_ne_zero.2 ht) hp, complete_eq, report, dbflagsWord_eq (by omega)]
  simp only [afterPoll, State.setUnit, Nat.add_assoc]

/-- The rule of the poll, in either direction: the two refusals, and the four cases of a sample. -/
theorem pollRule (d : Bool) : PollRule d (8 * d.toNat) (fun f => 4 * (settledLevel d f).toNat) := by
  intro s raw n hlegal _
  refine ⟨fun h => ?_, fun hn ht => ?_, fun hn ht hm hc => ?_, fun hn ht hm hc => ?_, fun hn ht hm hc => ?_,
    fun hn ht hm => ?_⟩
  · rw [exec_pollCmd, poll_badInst h, raise_eq, statusWord_badInst]
  · have hzero : s.threshold = 0 := congrArg BitVec.toNat ht
    rw [exec_pollCmd, poll_badThresh hn hzero, raise_eq, statusWord_badThresh]
  · rw [exec_pollCmd_eq_afterPoll hlegal hn ht (pollUnit_count _ hm (by omega))]
    simp [hc.ne]
  · rw [exec_pollCmd_eq_afterPoll hlegal hn ht (pollUnit_count _ hm (by omega))]
    simp [hc]
  · rw [exec_pollCmd_eq_afterPoll hlegal hn ht (pollUnit_hold _ hm hc)]
    rfl
  · rw [exec_pollCmd_eq_afterPoll hlegal hn ht (pollUnit_contrary _ _ _ hm)]
    rfl

/-- Settles O24: the poll with d = 1, where DIR is worth 8 and LVL is SET. -/
theorem dbposFollowsItsRule : Obligations.DbposFollowsItsRule := by
  have hlevel : (fun f => 4 * (settledLevel true f).toNat) = fun f => if f then 4 else 0 := by
    funext f; cases f <;> rfl
  exact ⟨fun raw _ hn => decode_encode_dbpos raw hn, hlevel ▸ pollRule true⟩

/-- Settles O25: the poll with d = 0, where LVL is 1 - SET. -/
theorem dbnegFollowsItsRule : Obligations.DbnegFollowsItsRule := by
  have hlevel : (fun f => 4 * (settledLevel false f).toNat) = fun f => if f then 0 else 4 := by
    funext f; cases f <;> rfl
  exact ⟨fun raw _ hn => decode_encode_dbneg raw hn, hlevel ▸ pollRule false⟩

/-- Settles O26: DBINIT either raises or writes its unit and completes. -/
theorem dbinitFollowsItsRule : Obligations.DbinitFollowsItsRule := by
  refine ⟨fun n hn => decode_encode_dbinit hn, fun s n hlen => ⟨fun h => ?_, fun hn => ?_⟩⟩
  · simp [exec, execDbinit, h, raise_eq]
  · have hexec : exec (.dbinit n) s = .next (complete (s.setUnit n 0x0000#16 false)) := by
      simp [exec, execDbinit, Nat.not_le.2 hn]
    have hunit : n < s.units.length := hlen.symm ▸ hn
    exact ⟨_, hexec, cnt_setUnit_same _ _ hunit, settled_setUnit_same _ _ hunit, complete_eq _⟩

/-- Settles O27: DBPEEK either raises or reports its unit and completes. -/
theorem dbpeekFollowsItsRule : Obligations.DbpeekFollowsItsRule := by
  refine ⟨fun d n hn => decode_encode_dbpeek d hn, fun s d n hlegal hlen => ⟨fun h => ?_, fun hn => ?_⟩⟩
  · simp [exec, execDbpeek, h, raise_eq]
  · have hbound := Config.bounds_of_legal hlegal
    have hexec : exec (.dbpeek d n) s = .next (complete (report n d (s.cnt n) (s.settled n) false s)) := by
      simp [exec, execDbpeek, Nat.not_le.2 hn]
    rw [hexec, complete_eq, report, dbflagsWord_eq (by omega), toNat_settledLevel]
    simp

/-- A unit's sample emits the event exactly when it is matching and takes the counter from below T to T
(42_debounce.md R91). -/
theorem pollUnit_evt_iff (d raw : Bool) (t c : Nat) (f : Bool) :
    (pollUnit d raw t c f).evt = true ↔ raw = d ∧ c < t ∧ (pollUnit d raw t c f).cnt = t := by
  by_cases hm : raw = d
  · by_cases hc : c < t
    · rw [pollUnit_count f hm hc]
      simp [hm, hc]
    · simp [pollUnit_hold f hm (Nat.le_of_not_lt hc), hc]
  · simp [pollUnit_contrary t c f hm, hm]

/-- Settles O28: what the poll leaves to see is what the unit's sample gives. -/
theorem settledEventExactlyAtThreshold : Obligations.SettledEventExactlyAtThreshold := by
  intro s d raw n hlen hn ht
  obtain ⟨hcnt, -, hevt⟩ := poll_observed (d := d) (raw := raw) hn hlen (threshold_ne_zero.2 ht) rfl
  refine ⟨_, exec_pollCmd d raw n s, ?_⟩
  rw [hevt, pollUnit_evt_iff, ← BitVec.toNat_inj, hcnt]
  rfl

end Sys2Proof.Machine
end

section
/-! SUPPORT. Streams of polls of one unit: the step by step run of the machine is the fold of the samples over the
unit, and a run of matching samples in closed form (42_debounce.md R99, R100). -/

namespace Sys2Proof.Machine

/-- A step that answers is the first of a run. -/
theorem run_succ_of_step {s s' : State} (h : step s = .next s') (k : Nat) :
    Host.Core.run Sys2Proof.core (k + 1) s = Host.Core.run Sys2Proof.core k s' := by
  have hstep : Sys2Proof.core.step s = .next s' := h
  simp only [Host.Core.run, hstep]

/-- What can be seen of unit n: its counter, its flag, and DBFLAGS.EVT. -/
def State.seen (s : State) (n : Nat) : Polled :=
  { cnt := (s.cnt n).toNat, settled := s.settled n, evt := s.dbflags.getLsbD 0 }

@[simp] theorem seen_cnt (s : State) (n : Nat) : (s.seen n).cnt = (s.cnt n).toNat := rfl
@[simp] theorem seen_settled (s : State) (n : Nat) : (s.seen n).settled = s.settled n := rfl
@[simp] theorem seen_evt (s : State) (n : Nat) : (s.seen n).evt = s.dbflags.getLsbD 0 := rfl

/-- One more sample against a unit, the event before it being overwritten. -/
def Polled.sample (d : Bool) (t : Nat) (p : Polled) (raw : Bool) : Polled := pollUnit d raw t p.cnt p.settled

/-- The word writes that poll unit n in direction d, one for each sample. -/
def pollEvents (c : Config) (d : Bool) (n : Nat) (raws : List Bool) : List HostEvent :=
  raws.map fun raw => cmdWrite c (encode (pollCmd d raw n))

/-- Polls of unit n run: the machine is legal, the unit exists, and the threshold is not 0. -/
structure State.Pollable (s : State) (n : Nat) : Prop where
  legal : s.cfg.legal = true
  length : s.units.length = s.cfg.nDb
  unit : n < s.cfg.nDb
  thresh : s.thresh ≠ 0x0000#16

/-- The step on a poll's word is POLL, CMD holding the word. -/
theorem step_pollCmd {s : State} {d raw : Bool} {n : Nat} {rest : List HostEvent} (hlegal : s.cfg.legal = true)
    (hn : n < 256) (hbus : s.bus = cmdWrite s.cfg (encode (pollCmd d raw n)) :: rest) :
    step s = .next (poll d raw n { s with bus := rest, cmd := encode (pollCmd d raw n) }) := by
  rw [step_cmdWrite hlegal hbus, issue_instr (decode_encode_pollCmd d raw hn), exec_pollCmd]

/-- One step on a poll takes one sample and leaves everything the next poll rests on. -/
theorem step_takes_sample {s : State} {d raw : Bool} {n : Nat} {rest : List HostEvent} (h : s.Pollable n)
    (hbus : s.bus = cmdWrite s.cfg (encode (pollCmd d raw n)) :: rest) :
    ∃ t, step s = .next t ∧ t.Pollable n ∧ t.cfg = s.cfg ∧ t.thresh = s.thresh ∧ t.bus = rest ∧
      t.seen n = (s.seen n).sample d s.thresh.toNat raw := by
  obtain ⟨hlegal, hlen, hn, ht⟩ := h
  have hbound := Config.bounds_of_legal hlegal
  have hstep := step_pollCmd hlegal (by omega) hbus
  have hexec := exec_pollCmd d raw n { s with bus := rest, cmd := encode (pollCmd d raw n) }
  obtain ⟨hcfg, -, -, -, hthresh, hrest, -, -⟩ := exec_keeps hexec
  obtain ⟨-, -, -, hunits, -⟩ := exec_writesOnly hexec
  obtain ⟨hcnt, hset, hevt⟩ := poll_observed (d := d) (raw := raw)
    (s := { s with bus := rest, cmd := encode (pollCmd d raw n) }) hn hlen (threshold_ne_zero.2 ht) rfl
  refine ⟨_, hstep, ⟨?_, ?_, ?_, ?_⟩, hcfg, hthresh, hrest, ?_⟩
  · rwa [hcfg]
  · rwa [hunits, hcfg]
  · rwa [hcfg]
  · rwa [hthresh]
  · rw [State.seen, hcnt, hset, hevt]
    rfl

/-- A run of the machine on a stream of polls folds the samples over the unit. -/
theorem run_pollEvents {d : Bool} {n : Nat} {rest : List HostEvent} (raws : List Bool) : ∀ {s : State},
    s.Pollable n → s.bus = pollEvents s.cfg d n raws ++ rest →
    ∃ t : State, Host.Core.run Sys2Proof.core raws.length s = .next t ∧ t.bus = rest ∧
      t.seen n = raws.foldl (Polled.sample d s.thresh.toNat) (s.seen n) := by
  induction raws with
  | nil => exact fun _ hbus => ⟨_, rfl, hbus, rfl⟩
  | cons raw raws ih =>
    intro s h hbus
    obtain ⟨s', hstep, h', hcfg, hthresh, hrest, hseen⟩ := step_takes_sample h hbus
    obtain ⟨t, hrun, hbus', hfold⟩ := ih h' (hrest.trans (by rw [hcfg]; rfl))
    refine ⟨t, (run_succ_of_step hstep _).trans hrun, hbus', ?_⟩
    rw [hfold, hthresh, hseen, List.foldl_cons]

/-- j matching samples count up to T and no further; the unit settles when the count comes to T, and the event is the
sample's that brings it there (42_debounce.md R89, R91). -/
theorem foldl_sample_replicate (d : Bool) (t : Nat) (p : Polled) (j : Nat) :
    ((List.replicate j d).foldl (Polled.sample d t) p).cnt = max p.cnt (min (p.cnt + j) t) ∧
    ((List.replicate j d).foldl (Polled.sample d t) p).settled =
      (p.settled || decide (p.cnt < t ∧ t ≤ p.cnt + j)) ∧
    (1 ≤ j → ((List.replicate j d).foldl (Polled.sample d t) p).evt = decide (p.cnt < t ∧ p.cnt + j = t)) := by
  induction j with
  | zero => simp
  | succ j ih =>
    obtain ⟨hcnt, hset, -⟩ := ih
    rw [List.replicate_succ', List.foldl_concat, Polled.sample, hcnt, hset]
    by_cases hc : p.cnt + j < t
    · have hcnt' : max p.cnt (min (p.cnt + j) t) = p.cnt + j := by omega
      rw [hcnt', pollUnit_count _ rfl hc]
      refine ⟨by dsimp only; omega, ?_, fun _ => decide_eq_decide.2 (by omega)⟩
      rw [Bool.or_assoc, ← Bool.decide_or]
      exact congrArg (p.settled || ·) (decide_eq_decide.2 (by omega))
    · rw [pollUnit_hold _ rfl (by omega)]
      refine ⟨by dsimp only; omega, congrArg (p.settled || ·) (decide_eq_decide.2 (by omega)), fun _ => ?_⟩
      exact (decide_eq_false (by omega)).symm

/-- A contrary sample clears the unit and the event, whatever came before (42_debounce.md R90). -/
theorem foldl_sample_contrary (d : Bool) (t : Nat) (p : Polled) (raws : List Bool) :
    (raws ++ [!d]).foldl (Polled.sample d t) p = { cnt := 0, settled := false, evt := false } := by
  rw [List.foldl_concat, Polled.sample, pollUnit_contrary _ _ _ (Bool.not_ne_self d)]

/-- Settles O29: the closed form from a counter at 0. -/
theorem runSettlesExactlyAtThreshold : Obligations.RunSettlesExactlyAtThreshold := by
  intro s d n j rest hlegal hlen hn ht hzero hbus
  have hevents : s.bus = pollEvents s.cfg d n (List.replicate j d) ++ rest := by
    rw [hbus, pollEvents, List.map_replicate]
  obtain ⟨t, hrun, hrest, hseen⟩ := run_pollEvents _ ⟨hlegal, hlen, hn, ht⟩ hevents
  obtain ⟨hcnt, -, hevt⟩ := foldl_sample_replicate d s.thresh.toNat (s.seen n) j
  rw [← hseen] at hcnt hevt
  have hpos : 0 < s.thresh.toNat := Nat.pos_of_ne_zero (threshold_ne_zero.2 ht)
  rw [List.length_replicate] at hrun
  refine ⟨t, hrun, hrest, ?_, ?_⟩
  · simpa [hzero] using hcnt
  · simpa [hzero, hpos] using hevt

/-- Settles O30: the contrary poll clears the unit, and the closed form runs from there. -/
theorem contraryPollRestartsTheRun : Obligations.ContraryPollRestartsTheRun := by
  intro s d n j m rest hlegal hlen hn ht _ hbus
  have hpollable : s.Pollable n := ⟨hlegal, hlen, hn, ht⟩
  constructor
  · have hevents : s.bus = pollEvents s.cfg d n (List.replicate j d ++ [!d]) ++
        (pollEvents s.cfg d n (List.replicate m d) ++ rest) := by
      simp [hbus, pollEvents]
    obtain ⟨t, hrun, -, hseen⟩ := run_pollEvents _ hpollable hevents
    rw [foldl_sample_contrary, State.seen, Polled.mk.injEq] at hseen
    obtain ⟨hcnt, hset, hevt⟩ := hseen
    rw [List.length_append, List.length_replicate] at hrun
    exact ⟨t, hrun, BitVec.eq_of_toNat_eq hcnt, hset, hevt⟩
  · have hevents : s.bus = pollEvents s.cfg d n (List.replicate j d ++ [!d] ++ List.replicate m d) ++ rest := by
      simp [hbus, pollEvents]
    obtain ⟨t, hrun, hrest, hseen⟩ := run_pollEvents _ hpollable hevents
    rw [List.foldl_append, foldl_sample_contrary] at hseen
    obtain ⟨hcnt, -, hevt⟩ := foldl_sample_replicate d s.thresh.toNat { cnt := 0, settled := false, evt := false } m
    rw [← hseen] at hcnt hevt
    have hpos : 0 < s.thresh.toNat := Nat.pos_of_ne_zero (threshold_ne_zero.2 ht)
    rw [List.length_append, List.length_append, List.length_replicate, List.length_replicate] at hrun
    refine ⟨t, hrun, hrest, ?_, ?_⟩
    · simpa using hcnt
    · simpa [hpos] using hevt

end Sys2Proof.Machine
end

section
/-! SUPPORT. STATUS after a command cycle: the word of a code, whatever STATUS was, and the code of the first check that
fails (60_exceptions.md R103, R104). -/

namespace Sys2Proof.Machine

/-! The word of a code, and that no cycle reads the one before (60_exceptions.md R103). -/

/-- RANGE is 1 exactly for the codes 1 and 2, and the bits above RANGE are 0. -/
theorem statusWord_fields (c : Code) :
    ((statusWord c).getLsbD 4 = true ↔ (statusWord c).toNat % 16 = 1 ∨ (statusWord c).toNat % 16 = 2) ∧
    (statusWord c).toNat / 32 = 0 := by
  cases c <;> decide

/-- Every command leaves the word of a code: it raises one, or its last write is that of OK. -/
theorem exec_status {i : Instr} {s t : State} (h : exec i s = .next t) : ∃ c, t.status = statusWord c := by
  rcases exec_cases h with ⟨c, rfl⟩ | ⟨w, b, -, -, rfl⟩ | ⟨d, raw, n, p, -, -, -, -, rfl⟩ | ⟨n, -, -, rfl⟩ |
    ⟨d, n, -, -, rfl⟩
  · exact ⟨c, rfl⟩
  all_goals exact ⟨.ok, rfl⟩

/-- Every command cycle leaves the word of a code, that of ILLEGAL where the word is no command. -/
theorem issue_status {v : Word} {s t : State} (h : issue v s = .next t) : ∃ c, t.status = statusWord c := by
  rcases issue_cases h with ⟨i, -, hexec⟩ | ⟨why, -, rfl⟩
  · exact exec_status hexec
  · exact ⟨.illegal, rfl⟩

/-- No command reads STATUS, and each overwrites it. -/
theorem exec_of_other_status (i : Instr) (s : State) (old : Word) : exec i { s with status := old } = exec i s := by
  cases i <;> rfl

/-- No command cycle depends on the STATUS before it. -/
theorem issue_of_other_status (v : Word) (s : State) (old : Word) : issue v { s with status := old } = issue v s := by
  cases hd : decode v with
  | instr i =>
    rw [issue_instr hd, issue_instr hd]
    exact exec_of_other_status i { s with cmd := v } old
  | illegal why => rw [issue_illegal hd, issue_illegal hd]

/-- Settles O9: the cycle leaves the word of a code, and it does not depend on the STATUS before. -/
theorem commandReportsOneOfSixStatusWords : Obligations.CommandReportsOneOfSixStatusWords := by
  intro s t v rest hlegal hbus hstep
  have hissue : issue v { s with bus := rest } = .next t := (step_cmdWrite hlegal hbus).symm.trans hstep
  obtain ⟨c, hc⟩ := issue_status hissue
  obtain ⟨hrange, habove⟩ := statusWord_fields c
  rw [hc]
  refine ⟨statusWord_legal c, hrange, habove, fun old => ?_⟩
  have hcycle : step { s with status := old } = issue v { s with bus := rest, status := old } :=
    step_cmdWrite (s := { s with status := old }) hlegal hbus
  rw [hcycle, ← hissue]
  exact issue_of_other_status v { s with bus := rest } old

/-! The checks of each command, in order (60_exceptions.md R104). -/

section Checks

variable {s : State} {n : Nat}

/-- The instance check comes first for every command that names a unit. -/
theorem exec_badInst {i : Instr} (hi : namedUnit i = some n) (hn : s.cfg.nDb ≤ n) :
    exec i s = .next (raise .badInst s) := by
  cases i with
  | nop => cases hi
  | quant w => cases hi
  | dbpos raw m => cases hi; exact congrArg Host.Outcome.next (poll_badInst hn)
  | dbneg raw m => cases hi; exact congrArg Host.Outcome.next (poll_badInst hn)
  | dbinit m => cases hi; exact if_pos hn
  | dbpeek d m => cases hi; exact if_pos hn

/-- The threshold check comes second, and for the polls alone. -/
theorem exec_pollCmd_badThresh (d raw : Bool) (hn : n < s.cfg.nDb) (ht : s.thresh = 0x0000#16) :
    exec (pollCmd d raw n) s = .next (raise .badThresh s) := by
  have hzero : s.threshold = 0 := congrArg BitVec.toNat ht
  rw [exec_pollCmd, poll_badThresh hn hzero]

/-- A poll that passes both checks completes. -/
theorem poll_status_ok (d raw : Bool) (hn : n < s.cfg.nDb) (ht : s.thresh ≠ 0x0000#16) :
    (poll d raw n s).status = 0x0000#16 := by
  rw [poll_ok hn (threshold_ne_zero.2 ht) rfl, complete_status, statusWord_ok]

/-- DBINIT of a unit that exists clears it and completes. -/
theorem exec_dbinit_ok (hn : n < s.cfg.nDb) :
    exec (.dbinit n) s = .next (complete (s.setUnit n 0x0000#16 false)) :=
  if_neg hn.not_ge

/-- DBPEEK of a unit that exists reports it and completes. -/
theorem exec_dbpeek_ok (d : Bool) (hn : n < s.cfg.nDb) :
    exec (.dbpeek d n) s = .next (complete (report n d (s.cnt n) (s.settled n) false s)) :=
  if_neg hn.not_ge

end Checks

/-- Settles O10: the cycle's next state is the one its command answers, so its STATUS is that of the command's first
check that fails. -/
theorem checksRunInOrder : Obligations.ChecksRunInOrder := by
  intro s v rest hlegal hbus
  obtain ⟨hinstr, hillegal⟩ := stepRunsDecodedCommand s v rest hlegal hbus
  obtain ⟨t, hissue, -⟩ := issue_total v { s with bus := rest }
  have hstep : step s = .next t := (step_cmdWrite hlegal hbus).trans hissue
  have hanswer {u : State} (hu : step s = .next u) : t.status = u.status :=
    congrArg State.status (Host.Outcome.next.inj (hstep.symm.trans hu))
  have hruns {i : Instr} {u : State} (hi : decode v = .instr i)
      (hexec : exec i { s with bus := rest, cmd := v } = .next u) : t.status = u.status :=
    hanswer ((hinstr i hi).trans hexec)
  refine ⟨t, hstep, fun ⟨why, hwhy⟩ => ?illegal, fun i n hi hunit hn => ?badInst, fun d raw n hi hn ht => ?badThresh,
    fun d raw n hi hn ht => ?poll, fun n hi hn => ?dbinit, fun d n hi hn => ?dbpeek, fun w hi hlt => ?subTick,
    fun w hi hle hnone => ?outOfRange⟩
  case illegal => exact hanswer (hillegal why hwhy)
  case badInst => exact (hruns hi (exec_badInst hunit hn)).trans statusWord_badInst
  case badThresh => exact (hruns hi (exec_pollCmd_badThresh d raw hn ht)).trans statusWord_badThresh
  case poll => exact (hruns hi (exec_pollCmd d raw n _)).trans (poll_status_ok d raw hn ht)
  case dbinit => exact (hruns hi (exec_dbinit_ok hn)).trans statusWord_ok
  case dbpeek => exact (hruns hi (exec_dbpeek_ok d hn)).trans statusWord_ok
  case subTick => exact hruns hi (exec_quant_eq_subTick_iff.2 hlt)
  case outOfRange => exact hruns hi (exec_quant_eq_outOfRange_iff.2 ⟨hle, hnone⟩)

end Sys2Proof.Machine
end

section
/-! SUPPORT. Reset: the registers and the debounce units it leaves, and that a reset event leaves the same ones
(70_reset_and_hazards.md R115, R116). -/

namespace Sys2Proof.Machine

/-- Every register the block stores is 0 after reset, and the reserved slot reads 0 in any state. -/
theorem getReg_resetWith (c : Config) {r : Reg} (hr : r ≠ .info) : (State.resetWith c).getReg r = 0x0000#16 := by
  cases r with
  | info => exact absurd rfl hr
  | _ => rfl

/-- Every unit of the file has counted nothing and is unsettled after reset. -/
theorem units_resetWith (c : Config) {n : Nat} (hn : n < c.nDb) :
    (State.resetWith c).units[n]? = some { cnt := 0x0000#16, settled := false } :=
  List.getElem?_replicate_of_lt hn

theorem length_units_resetWith (c : Config) : (State.resetWith c).units.length = c.nDb :=
  List.length_replicate

/-- The registers do not see the two fields of its own that the model carries over a reset event (log entry 7). -/
theorem getReg_hostReset (s : State) (r : Reg) : (hostReset s).getReg r = (State.resetWith s.cfg).getReg r := by
  cases r <;> rfl

theorem units_hostReset (s : State) : (hostReset s).units = (State.resetWith s.cfg).units := rfl

/-- A reset event is the reset and nothing more: the step goes through no command cycle. -/
theorem step_reset {s : State} {rest : List HostEvent} (hlegal : s.cfg.legal = true) (hbus : s.bus = .reset :: rest) :
    step s = .next (hostReset { s with bus := rest }) :=
  step_cons hlegal hbus

/-- Settles O47: the state after reset is the one of the lemmas above, and a reset event leaves its registers and units,
with the configuration that INFO is read from. -/
theorem resetClearsEverything : Obligations.ResetClearsEverything := by
  refine ⟨fun c hlegal => ?state, fun s rest hlegal hbus => ?event⟩
  case state =>
    exact ⟨fun r hr => getReg_resetWith c hr, toNat_infoWord hlegal, fun n hn => units_resetWith c hn,
      length_units_resetWith c, rfl⟩
  case event =>
    refine ⟨_, step_reset hlegal hbus, rfl, rfl, rfl, fun r hr => ?_, ?_⟩
    · exact (getReg_hostReset _ r).trans (getReg_resetWith s.cfg hr)
    · rw [units_hostReset]
      exact ⟨fun n hn => units_resetWith s.cfg hn, length_units_resetWith s.cfg⟩

end Sys2Proof.Machine
end

section
/-! SUPPORT. The two round trips between commands and words, and the words written out in the spec (30_encoding.md
R55 to R61). -/

namespace Sys2Proof

theorem decode_encode_quant (w : Width) : decode (encode (.quant w)) = .instr (.quant w) := by
  cases w <;> decide

/-- Settles O1: the decoder's answer to the word of each command. -/
theorem decodeOfEncodeIsIdentity : Obligations.DecodeOfEncodeIsIdentity := by
  intro i hwf
  cases i with
  | nop => decide
  | quant w => exact decode_encode_quant w
  | dbpos raw n => exact decode_encode_dbpos raw (of_decide_eq_true hwf)
  | dbneg raw n => exact decode_encode_dbneg raw (of_decide_eq_true hwf)
  | dbinit n => exact decode_encode_dbinit (of_decide_eq_true hwf)
  | dbpeek d n => exact decode_encode_dbpeek d (of_decide_eq_true hwf)

/-- A word is its opcode and its low 12 bits put together. -/
theorem ofNat_opcode_low {v : Word} {op low : Nat} (hop : v.toNat / 4096 = op) (hlow : v.toNat % 4096 = low) :
    BitVec.ofNat 16 (4096 * op + low) = v := by
  have hnum : 4096 * op + low = v.toNat := by omega
  rw [hnum, BitVec.ofNat_toNat, BitVec.setWidth_eq]

theorem toNat_getLsbD (v : Word) (i : Nat) : (v.getLsbD i).toNat = v.toNat / 2 ^ i % 2 := Nat.toNat_testBit v.toNat i

/-- A word of the commands with an operand bit and an index is its opcode, that bit and the index put together. -/
theorem ofNat_opcode_bit_index {v : Word} {op : Nat} (hop : v.toNat / 4096 = op) (hlow : v.toNat % 4096 < 512) :
    BitVec.ofNat 16 (4096 * op + 256 * (v.getLsbD 8).toNat + v.toNat % 256) = v := by
  have hbit := toNat_getLsbD v 8
  rw [Nat.add_assoc]
  exact ofNat_opcode_low hop (by omega)

/-- The bit W of the width that the bit W names (30_encoding.md R56). -/
theorem bit_width (b : Bool) : (if b then Width.w16 else .w8).bit = b.toNat := by
  cases b <;> rfl

/-- The check of `wellFormed` on an index, for the low 8 bits of any word. -/
theorem index_wellFormed (v : Word) : decide (v.toNat % 256 < 256) = true :=
  decide_eq_true (Nat.mod_lt _ (by omega))

/-- Settles O2: the word's opcode picks its row of the table, the row gives the command, and the command's word has the
fields of the word. -/
theorem encodeOfDecodeIsIdentity : Obligations.EncodeOfDecodeIsIdentity := by
  intro v i h
  obtain ⟨hnop, hquant, hdbpos, hdbneg, hdbinit, hdbpeek, -⟩ := decoderFollowsOpcodeTable.1 v
  match hop : v.toNat / 4096, (exists_decode_instr_iff v).1 ⟨i, h⟩ with
  | 0, hlow =>
    cases (hnop ((meets_nop_row v).2 ⟨hop, hlow⟩)).symm.trans h
    exact ⟨rfl, ofNat_opcode_low hop (Nat.lt_one_iff.1 hlow)⟩
  | 1, hlow =>
    cases (hquant ((meets_quant_row v).2 ⟨hop, hlow⟩)).symm.trans h
    have hlow : v.toNat % 4096 < 2 := hlow
    have hbit := toNat_getLsbD v 0
    exact ⟨rfl, ofNat_opcode_low hop (by rw [bit_width]; omega)⟩
  | 2, hlow =>
    cases (hdbpos ((meets_dbpos_row v).2 ⟨hop, hlow⟩)).symm.trans h
    exact ⟨index_wellFormed v, ofNat_opcode_bit_index hop hlow⟩
  | 3, hlow =>
    cases (hdbneg ((meets_dbneg_row v).2 ⟨hop, hlow⟩)).symm.trans h
    exact ⟨index_wellFormed v, ofNat_opcode_bit_index hop hlow⟩
  | 4, hlow =>
    cases (hdbinit ((meets_dbinit_row v).2 ⟨hop, hlow⟩)).symm.trans h
    have hlow : v.toNat % 4096 < 256 := hlow
    exact ⟨index_wellFormed v, ofNat_opcode_low hop (by omega)⟩
  | 5, hlow =>
    cases (hdbpeek ((meets_dbpeek_row v).2 ⟨hop, hlow⟩)).symm.trans h
    exact ⟨index_wellFormed v, ofNat_opcode_bit_index hop hlow⟩
  | op + 6, hlow => exact absurd hlow (Nat.not_lt_zero _)

/-- Settles O4: the decoder's answer to each of the nine words. -/
theorem specCommandWordsDecode : Obligations.SpecCommandWordsDecode := by
  unfold Obligations.SpecCommandWordsDecode
  decide

end Sys2Proof
end

section
/-! SUPPORT. The result registers of a successful QUANT as numbers, and when QUANT succeeds (41_quantizer.md R75
to R79). -/

namespace Sys2Proof.Machine

/-- QSEL.OVER of the word built from its fields (10_state.md R21). -/
theorem qselWord_over (isOver : Bool) (k : Nat) : (qselWord isOver k).getLsbD 8 = isOver := by
  simp only [qselWord, BitVec.getLsbD_append]
  simp

section Results

variable {c : Config} {iq k : Nat} {w : Width}

/-- The widest count is a 16-bit number (00_scope.md R8). -/
theorem maxCount_lt (w : Width) : 2 ^ w.bits - 1 < 65536 := by
  cases w <;> decide

/-- RELOAD holds the count of a valid clock. -/
theorem toNat_reload_candOf (hvalid : ValidClock c iq (2 ^ w.bits - 1) k) (s : State) :
    (writeQuant (candOf c iq k) s).reload.toNat = countOf c iq k := by
  obtain ⟨-, -, -, hle⟩ := hvalid
  rw [writeQuant_reload, wordOf, BitVec.toNat_ofNat, Nat.mul_zero, Nat.pow_zero, Nat.div_one]
  exact Nat.mod_eq_of_lt (hle.trans_lt (maxCount_lt w))

/-- ACH holds the interval of a valid clock: a 16-bit count of a 32-bit tick (10_state.md R23). -/
theorem ach_candOf (hlegal : c.legal = true) (hvalid : ValidClock c iq (2 ^ w.bits - 1) k) (s : State) :
    (writeQuant (candOf c iq k) s).ach = intervalOf c iq k := by
  obtain ⟨hk, -, -, hle⟩ := hvalid
  have hfits : countOf c iq k * tickOf c k < 2 ^ 16 * 2 ^ 32 :=
    Nat.mul_lt_mul'' (hle.trans_lt (maxCount_lt w)) (tickOf_range hlegal hk).2
  exact words3_wordOf hfits

/-- ERRM holds the error of a clock: half of a 32-bit tick (10_state.md R24). -/
theorem errm_candOf (hlegal : c.legal = true) (hk : k < c.nclk) (s : State) :
    (writeQuant (candOf c iq k) s).errm = errorOf c iq k := by
  have herror := errorOf_le_half_tick hlegal iq hk
  have htick := (tickOf_range hlegal hk).2
  exact words2_wordOf (x := errorOf c iq k) (by omega)

end Results

/-- Settles O17: a success writes a selected clock, and where a clock is valid QUANT writes the selected one. -/
theorem quantSucceedsIffSomeClockIsValid : Obligations.QuantSucceedsIffSomeClockIsValid := by
  intro w s hlegal
  constructor
  · rintro ⟨t, hexec, hok⟩
    obtain ⟨k, hsel, -⟩ := exists_selectedClock_of_exec_quant_ok hexec hok
    exact ⟨k, hsel.1⟩
  · rintro ⟨k, hvalid⟩
    obtain ⟨k', -, hexec⟩ := exec_quant_of_validClock (tickOf_zero_le_of_validClock hlegal hvalid) hvalid
    exact ⟨_, hexec, statusWord_ok⟩

/-- Settles O19: the registers hold the selected clock's count, interval, error and direction, and CLKSEL the clock. -/
theorem quantResultRegistersAgree : Obligations.QuantResultRegistersAgree := by
  intro w s t hlegal hexec hok
  obtain ⟨k, ⟨hvalid, -⟩, rfl⟩ := exists_selectedClock_of_exec_quant_ok hexec hok
  have hreload := toNat_reload_candOf hvalid s
  have hach := ach_candOf hlegal hvalid s
  have herrm := errm_candOf (iq := requestOf s) hlegal hvalid.1 s
  obtain ⟨hk, -, hpos, hle⟩ := hvalid
  rw [clk_writeQuant_candOf hlegal _ hk, complete_reload, hreload]
  refine ⟨hk, hpos, hle, hach, ?errm, ?direction, qselWord_stuck _ _⟩
  case errm =>
    refine Eq.trans ?_ herrm.symm
    simp only [errorOf, intervalOf]
    omega
  case direction =>
    rw [complete_qsel, writeQuant_qsel, qselWord_over]
    exact decide_eq_true_iff

/-- Settles O48: an empty stream is the idle step's, and a count is at least 1. -/
theorem nothingRunsUntilTheHostWrites : Obligations.NothingRunsUntilTheHostWrites := by
  refine ⟨fun s hlegal hbus => ?idle, rfl, fun w s t hlegal hexec hok hzero => ?result⟩
  case idle => simp [step, hlegal, hbus]
  case result =>
    obtain ⟨-, hpos, -⟩ := quantResultRegistersAgree w s t hlegal hexec hok
    simp [hzero] at hpos

end Sys2Proof.Machine
end

section
/-! SUPPORT. The events by what they can write: an access that runs no command, a command cycle, a reset or a
power-down; and from that the one induction step that each invariant of the machine cites. -/

namespace Sys2Proof.Machine

/-- Writing an RW register is a write of the two halves of INTV and of THRESH, two of them with what they hold. -/
theorem setReg_rw_eq {r : Reg} (hrw : r.access = .rw) (s : State) (v : Word) :
    ∃ lo hi th, s.setReg r v = { s with intvLo := lo, intvHi := hi, thresh := th } := by
  rcases access_eq_rw.1 hrw with rfl | rfl | rfl <;> exact ⟨_, _, _, rfl⟩

/-- CMD's slot is reached at an even offset only at BASE (10_state.md R16). -/
theorem eq_base_of_locate_cmd {c : Config} {a o : Nat} (hloc : c.locate a = some o) (heven : o % 2 = 0)
    (hslot : Reg.ofOffset o = .cmd) : a = c.base := by
  obtain ⟨hge, hlt, rfl⟩ := locate_eq_some.1 hloc
  have hoffset := eq_offset_or_succ_of_lt (o := a - c.base) (by omega)
  rw [hslot] at hoffset
  simp only [Reg.offset] at hoffset
  omega

/-- Everything an event can do, by what it can write (10_state.md R33, 20_memory.md R38 to R44). -/
theorem perform_kinds {e : HostEvent} {s t : State} (h : perform e s = .next t) :
    (∃ lo hi th read, t = { s with intvLo := lo, intvHi := hi, thresh := th, lastRead := read }) ∨
    (∃ v, e = cmdWrite s.cfg v ∧ issue v s = .next t) ∨
    (e = .reset ∧ t = hostReset s) ∨
    (e = .powerCycle ∧ t = hostPowerCycle s) := by
  rcases perform_cases h with ⟨d, rfl⟩ | ⟨o, b, rfl⟩ | ⟨o, v, -, rfl⟩ | ⟨a, o, v, rfl, hloc, heven, hslot, hissue⟩ |
    hreset | hpower
  · exact .inl ⟨_, _, _, _, rfl⟩
  · rcases storeByte_cases s o b with hs | ⟨hrw, v, -, hs⟩
    · exact .inl ⟨_, _, _, _, hs⟩
    · obtain ⟨lo, hi, th, hset⟩ := setReg_rw_eq hrw s v
      exact .inl ⟨lo, hi, th, _, hs.trans hset⟩
  · rcases storeWord_cases s o v with hs | ⟨hrw, hs⟩
    · exact .inl ⟨_, _, _, _, hs⟩
    · obtain ⟨lo, hi, th, hset⟩ := setReg_rw_eq hrw s v
      exact .inl ⟨lo, hi, th, _, hs.trans hset⟩
  · exact .inr (.inl ⟨v, by rw [eq_base_of_locate_cmd hloc heven hslot], hissue⟩)
  · exact .inr (.inr (.inl hreset))
  · exact .inr (.inr (.inr hpower))

/-- Settles O43: an access that runs no command leaves all but INTV, THRESH and the value read. -/
theorem onlyCmdWordWritesExecute : Obligations.OnlyCmdWordWritesExecute := by
  intro s t e rest hbus hreset hpower hcmd hstep
  obtain ⟨hlegal, -⟩ := step_cases hstep
  rw [step_cons hlegal hbus] at hstep
  rcases perform_kinds hstep with ⟨lo, hi, th, read, rfl⟩ | ⟨v, rfl, -⟩ | ⟨rfl, -⟩ | ⟨rfl, -⟩
  · refine ⟨rfl, rfl, rfl, rfl, fun r hlo hhi hthresh => ?_⟩
    cases r with
    | intvLo => exact absurd rfl hlo
    | intvHi => exact absurd rfl hhi
    | thresh => exact absurd rfl hthresh
    | _ => rfl
  · exact absurd rfl (hcmd v)
  · exact absurd rfl hreset
  · exact absurd rfl hpower

/-- What a predicate on states needs so that every step of a legal machine but a power-down keeps it: not to see the
registers that the host writes nor the model's own stream and read data, and to be kept by each operation that a command
is made of, and by reset. -/
structure KeptByOperations (P : State → Prop) : Prop where
  unseen : ∀ (s : State) cmd lo hi th bus read, P s →
    P { s with cmd := cmd, intvLo := lo, intvHi := hi, thresh := th, bus := bus, lastRead := read }
  raise : ∀ (c : Code) (s : State), P s → P (raise c s)
  quant : ∀ (w : Width) (b : Cand) (s : State), s.cfg.legal = true → quantize s.cfg s.intv w = .found b →
    P s → P (writeQuant b s)
  sample : ∀ (d raw : Bool) (n : Nat) (p : Polled) (s : State),
    pollUnit d raw s.threshold (s.cnt n).toNat (s.settled n) = p →
    P s → P (s.setUnit n (BitVec.ofNat 16 p.cnt) p.settled)
  clear : ∀ (n : Nat) (s : State), P s → P (s.setUnit n 0x0000#16 false)
  report : ∀ (n : Nat) (d : Bool) (c : Word) (settled evt : Bool) (s : State), P s → P (report n d c settled evt s)
  reset : ∀ s : State, s.cfg.legal = true → P s → P (hostReset s)

section Kept

variable {P : State → Prop} (h : KeptByOperations P)

include h

/-- A command is made of the operations. -/
theorem KeptByOperations.of_exec {i : Instr} {s t : State} (hlegal : s.cfg.legal = true) (hs : P s)
    (hexec : exec i s = .next t) : P t := by
  have hcomplete {u : State} (hu : P u) : P (complete u) := h.raise .ok u hu
  rcases exec_cases hexec with ⟨c, rfl⟩ | ⟨w, b, -, hfound, rfl⟩ | ⟨d, raw, n, p, -, -, -, hp, rfl⟩ | ⟨n, -, -, rfl⟩ |
    ⟨d, n, -, -, rfl⟩
  · exact h.raise c s hs
  · exact hcomplete (h.quant w b s hlegal hfound hs)
  · exact hcomplete (h.report _ _ _ _ _ _ (h.sample d raw n p s hp hs))
  · exact hcomplete (h.clear n s hs)
  · exact hcomplete (h.report _ _ _ _ _ _ hs)

/-- A command cycle stores the word in CMD, which P does not see, and runs a command or raises ILLEGAL. -/
theorem KeptByOperations.of_issue {v : Word} {s t : State} (hlegal : s.cfg.legal = true) (hs : P s)
    (hissue : issue v s = .next t) : P t := by
  have hcmd : P (s.setReg .cmd v) := h.unseen s v _ _ _ _ _ hs
  rcases issue_cases hissue with ⟨i, -, hexec⟩ | ⟨why, -, rfl⟩
  · exact h.of_exec (s := s.setReg .cmd v) hlegal hcmd hexec
  · exact h.raise .illegal _ hcmd

/-- A step keeps what the operations keep; what a power-down leaves is the claim's own to say. -/
theorem KeptByOperations.of_step {s t : State} (hs : P s) (hstep : step s = .next t)
    (hpower : ∀ rest, s.bus = .powerCycle :: rest → P (hostPowerCycle { s with bus := rest })) : P t := by
  obtain ⟨hlegal, ⟨-, rfl⟩ | ⟨e, rest, hbus, hperform⟩⟩ := step_cases hstep
  · exact hs
  · have htaken : P { s with bus := rest } := h.unseen s _ _ _ _ rest _ hs
    rcases perform_kinds hperform with ⟨lo, hi, th, read, rfl⟩ | ⟨v, -, hissue⟩ | ⟨-, rfl⟩ | ⟨rfl, rfl⟩
    · exact h.unseen s _ lo hi th rest read hs
    · exact h.of_issue (s := { s with bus := rest }) hlegal htaken hissue
    · exact h.reset _ hlegal htaken
    · exact hpower rest hbus

/-- Where the pending event is no power-down, every step keeps what the operations keep. -/
theorem KeptByOperations.of_step_powered {s t : State} (hs : P s)
    (hpowered : s.bus.head? ≠ some .powerCycle) (hstep : step s = .next t) : P t :=
  h.of_step hs hstep fun rest hbus => absurd (by rw [hbus, List.head?_cons]) hpowered

end Kept

end Sys2Proof.Machine
end

section
/-! SUPPORT. The invariants of the machine: each holds at reset, and each operation keeps it (10_state.md sections 1, 3
and 4; log entry 6 for the power-down). -/

namespace Sys2Proof.Machine

theorem inv_resetWith {c : Config} (hlegal : c.legal = true) : (State.resetWith c).Inv :=
  ⟨hlegal, length_units_resetWith c, statusWord_legal .ok, BitVec.zero_and, BitVec.zero_and⟩

/-- Settles O50: every register is 0 and each unit is there. -/
theorem resetMeetsInvariant : Obligations.ResetMeetsInvariant :=
  ⟨inv_resetWith (by decide), fun _ hlegal => inv_resetWith hlegal⟩

/-- The operations keep the invariant: they write STATUS words of codes, QSEL and DBFLAGS words built from their fields,
and units of the file as it is. -/
theorem inv_keptByOperations : KeptByOperations State.Inv where
  unseen _ _ _ _ _ _ _ h := h
  raise c _ := fun ⟨hcfg, hlen, _, hqsel, hflags⟩ => ⟨hcfg, hlen, statusWord_legal c, hqsel, hflags⟩
  quant _ b _ _ _ := fun ⟨hcfg, hlen, hstatus, _, hflags⟩ => ⟨hcfg, hlen, hstatus, qselWord_stuck b.isOver b.k, hflags⟩
  sample _ _ n _ s _ := fun ⟨hcfg, hlen, h⟩ => ⟨hcfg, (length_setUnit s n _ _).trans hlen, h⟩
  clear n s := fun ⟨hcfg, hlen, h⟩ => ⟨hcfg, (length_setUnit s n _ _).trans hlen, h⟩
  report n d _ settled evt _ := fun ⟨hcfg, hlen, hstatus, hqsel, _⟩ =>
    ⟨hcfg, hlen, hstatus, hqsel, dbflagsWord_stuck n d _ settled evt⟩
  reset _ hlegal _ := inv_resetWith hlegal

/-- A power-down keeps the invariant: the stuck fields stay stuck (log entry 6). -/
theorem inv_hostPowerCycle {s : State} (hlegal : s.cfg.legal = true) : (hostPowerCycle s).Inv := by
  refine ⟨hlegal, length_freeUnits _ _, freeStatus_legal _, ?_, ?_⟩
  · rw [hostPowerCycle, BitVec.and_assoc]
    exact BitVec.and_zero
  · rw [hostPowerCycle, BitVec.and_assoc]
    exact BitVec.and_zero

/-- Settles O49: each operation keeps the invariant, and so does a power-down. -/
theorem stepKeepsInvariant : Obligations.StepKeepsInvariant := fun _ _ hinv hstep =>
  inv_keptByOperations.of_step hinv hstep fun _ _ => inv_hostPowerCycle hinv.1

/-- Settles O54: each event has a step, which takes it and keeps the configuration and the invariant. -/
theorem answeredStreamsRunToTheEnd : Obligations.AnsweredStreamsRunToTheEnd := by
  intro s k
  induction k generalizing s with
  | zero => exact fun hinv _ _ => ⟨s, rfl, rfl, rfl, hinv⟩
  | succ k ih =>
    intro hinv hanswered hle
    match hbus : s.bus, hle with
    | e :: rest, hle =>
      rw [State.BusAnswered, hbus, List.all_cons, Bool.and_eq_true] at hanswered
      obtain ⟨hevent, hrest⟩ := hanswered
      obtain ⟨s', hperform, hbus'⟩ := perform_total (s := { s with bus := rest }) hevent
      have hstep : step s = .next s' := (step_cons hinv.1 hbus).trans hperform
      have hcfg := step_cfg hstep
      obtain ⟨t, hrun, htaken, hcfg', hinv'⟩ := ih s' (stepKeepsInvariant s s' hinv hstep)
        (by rwa [State.BusAnswered, hbus', hcfg]) (by rw [hbus']; exact Nat.le_of_succ_le_succ hle)
      refine ⟨t, (run_succ_of_step hstep k).trans hrun, ?_, hcfg'.trans hcfg, hinv'⟩
      rw [htaken, hbus', List.drop_succ_cons]

/-- QSEL.CLKSEL as a number (10_state.md R21). -/
theorem qselClk_eq (v : Word) : qselClk v = v.toNat % 16 := by
  simp [qselClk, slice]

/-- The results of a valid clock are coherent: its interval is its count of its ticks, its error at most half of one. -/
theorem quantCoherent_writeQuant {s : State} {iq k : Nat} {w : Width} (hlegal : s.cfg.legal = true)
    (hvalid : ValidClock s.cfg iq (2 ^ w.bits - 1) k) : (writeQuant (candOf s.cfg iq k) s).QuantCoherent := by
  have hclk : qselClk (writeQuant (candOf s.cfg iq k) s).qsel = k :=
    (qselClk_eq _).trans (clk_writeQuant_candOf hlegal iq hvalid.1 s)
  rw [State.QuantCoherent, hclk, ach_candOf hlegal hvalid, toNat_reload_candOf hvalid, errm_candOf hlegal hvalid.1]
  exact ⟨hvalid.1, rfl, errorOf_le_half_tick hlegal iq hvalid.1⟩

/-- After reset CLKSEL names the finest clock, and the interval and the error are 0. -/
theorem quantCoherent_resetWith {c : Config} (hlegal : c.legal = true) : (State.resetWith c).QuantCoherent :=
  ⟨(qselClk_eq 0#16).trans_lt (c.bounds_of_legal hlegal).1, (Nat.zero_mul _).symm, Nat.zero_le _⟩

/-- The operations keep the results coherent: only QUANT and reset write them. -/
theorem quantCoherent_keptByOperations : KeptByOperations State.QuantCoherent where
  unseen _ _ _ _ _ _ _ h := h
  raise _ _ h := h
  quant w b s hlegal hfound _ := by
    obtain ⟨-, ⟨hvalid, -⟩, hb⟩ := quantize_found hfound
    rw [hb]
    exact quantCoherent_writeQuant hlegal hvalid
  sample _ _ _ _ _ _ h := h
  clear _ _ h := h
  report _ _ _ _ _ _ h := h
  reset _ hlegal _ := quantCoherent_resetWith hlegal

/-- Settles O51: each operation keeps the results coherent. -/
theorem stepKeepsQuantResultsCoherent : Obligations.StepKeepsQuantResultsCoherent := fun _ _ h hpowered hstep =>
  quantCoherent_keptByOperations.of_step_powered h hpowered hstep

/-- A unit that reads as settled is a unit of the file, so it has counted. -/
theorem cnt_ne_zero_of_settled {s : State} (h : s.SettledHaveCounted) {n : Nat} (hn : s.settled n = true) :
    s.cnt n ≠ 0x0000#16 := by
  by_cases hlt : n < s.units.length
  · rw [State.settled, List.getD_eq_getElem _ _ hlt] at hn
    rw [State.cnt, List.getD_eq_getElem _ _ hlt]
    exact h _ (List.getElem_mem hlt) hn
  · rw [State.settled, List.getD_eq_default _ _ (by omega)] at hn
    cases hn

/-- Writing a unit that has counted if it is settled. -/
theorem settledHaveCounted_setUnit {s : State} (h : s.SettledHaveCounted) (n : Nat) {c : Word} {f : Bool}
    (hf : f = true → c ≠ 0x0000#16) : (s.setUnit n c f).SettledHaveCounted := by
  intro u hu hset
  rcases List.mem_or_eq_of_mem_set hu with hmem | rfl
  · exact h u hmem hset
  · exact hf hset

/-- After reset no unit is settled. -/
theorem settledHaveCounted_resetWith (c : Config) : (State.resetWith c).SettledHaveCounted := by
  intro u hu hset
  rw [(List.mem_replicate.1 hu).2] at hset
  cases hset

/-- The operations keep it: a sample that settles a unit has counted, and DBINIT and reset unsettle. -/
theorem settledHaveCounted_keptByOperations : KeptByOperations State.SettledHaveCounted where
  unseen _ _ _ _ _ _ _ h := h
  raise _ _ h := h
  quant _ _ _ _ _ h := h
  sample d raw n p s hp h := by
    have hcounted : s.settled n = true → (s.cnt n).toNat ≠ 0 := fun hn hzero =>
      cnt_ne_zero_of_settled h hn (BitVec.eq_of_toNat_eq hzero)
    have hlt : p.cnt < 65536 := hp ▸ pollUnit_cnt_lt _ (s.cnt n).isLt s.thresh.isLt
    refine settledHaveCounted_setUnit h n fun hset hzero => ?_
    have hpos : p.cnt ≠ 0 := by
      subst hp
      exact pollUnit_settled_pos hcounted hset
    have hcnt := congrArg BitVec.toNat hzero
    rw [BitVec.toNat_ofNat, Nat.mod_eq_of_lt hlt] at hcnt
    exact hpos hcnt
  clear n _ h := settledHaveCounted_setUnit h n fun hf => nomatch hf
  report _ _ _ _ _ _ h := h
  reset s _ _ := settledHaveCounted_resetWith s.cfg

/-- Settles O52: each operation keeps it. -/
theorem stepKeepsSettledUnitsCounted : Obligations.StepKeepsSettledUnitsCounted := fun _ _ h hpowered hstep =>
  settledHaveCounted_keptByOperations.of_step_powered h hpowered hstep

/-- Settles O53: every register is 0 and no unit is settled. -/
theorem resetResultsAreCoherent : Obligations.ResetResultsAreCoherent := fun c hlegal =>
  ⟨quantCoherent_resetWith hlegal, settledHaveCounted_resetWith c⟩

end Sys2Proof.Machine
end

section
/-! SUPPORT. The commands against the debounce file: repeating a command, a run of polls from any counter, a counter
that does not wrap, and the units that a command does not name (42_debounce.md section 1; 10_state.md R30, R31; 20_memory.md
R46). -/

namespace Sys2Proof.Machine

/-- Settles O31: a run of matching polls is the fold of the samples, and the fold has its closed form. -/
theorem runFromAnyCounter : Obligations.RunFromAnyCounter := by
  intro s d n j rest hlegal hlen hn ht hbus
  have hevents : s.bus = pollEvents s.cfg d n (List.replicate j d) ++ rest := by
    rw [hbus, pollEvents, List.map_replicate]
  obtain ⟨t, hrun, hrest, hseen⟩ := run_pollEvents _ ⟨hlegal, hlen, hn, ht⟩ hevents
  obtain ⟨hcnt, hset, hevt⟩ := foldl_sample_replicate d s.thresh.toNat (s.seen n) j
  rw [← hseen] at hcnt hset hevt
  rw [List.length_replicate] at hrun
  exact ⟨t, hrun, hrest, hcnt, hset, hevt⟩

/-- A sample sends the counter to 0, leaves it, or adds one, and a matching one does not lower it (42_debounce.md R89,
R90). -/
theorem pollUnit_cnt_cases (d raw : Bool) (t c : Nat) (f : Bool) :
    ((pollUnit d raw t c f).cnt = 0 ∨ (pollUnit d raw t c f).cnt = c ∨ (pollUnit d raw t c f).cnt = c + 1) ∧
    (raw = d → c ≤ (pollUnit d raw t c f).cnt) := by
  by_cases hm : raw = d
  · by_cases hc : c < t
    · rw [pollUnit_count f hm hc]
      exact ⟨.inr (.inr rfl), fun _ => Nat.le_succ c⟩
    · rw [pollUnit_hold f hm (Nat.le_of_not_lt hc)]
      exact ⟨.inr (.inl rfl), fun _ => le_rfl⟩
  · rw [pollUnit_contrary t c f hm]
    exact ⟨.inl rfl, fun h => absurd h hm⟩

/-- Settles O33: a refused poll leaves the counter, and one that runs leaves what its sample gives. -/
theorem counterNeverWraps : Obligations.CounterNeverWraps := by
  intro s t d raw n hlen hexec
  rw [exec_pollCmd] at hexec
  cases hexec
  rcases poll_cases d raw n s with ⟨-, hpoll⟩ | ⟨-, -, hpoll⟩ | ⟨hn, ht, p, hp, -⟩
  · rw [hpoll]
    exact ⟨.inr (.inl rfl), fun _ => le_rfl⟩
  · rw [hpoll]
    exact ⟨.inr (.inl rfl), fun _ => le_rfl⟩
  · obtain ⟨hcnt, -⟩ := poll_observed hn hlen ht hp
    rw [hcnt, ← hp]
    exact pollUnit_cnt_cases d raw s.threshold _ _

/-- Settles O12: a command that only raises reads no STATUS, and each of the others writes what does not change its own
inputs; one matching poll below the threshold counts, and so does the next. -/
theorem onlyPollsAreNotIdempotent : Obligations.OnlyPollsAreNotIdempotent := by
  refine ⟨fun i s t hnopoll hexec => ?idempotent, fun d => ?poll⟩
  case idempotent =>
    rcases exec_cases hexec with ⟨c, rfl⟩ | ⟨w, b, rfl, hfound, rfl⟩ | ⟨d, raw, n, p, rfl, -⟩ | ⟨n, rfl, hn, rfl⟩ |
      ⟨d, n, rfl, hn, rfl⟩
    · exact (exec_of_other_status i s _).trans hexec
    · have hfound' : quantize (complete (writeQuant b s)).cfg (complete (writeQuant b s)).intv w = .found b := hfound
      simp only [exec, execQuant, hfound']
      rfl
    · exact absurd rfl (hnopoll d raw n)
    · refine (exec_dbinit_ok (s := complete (s.setUnit n 0x0000#16 false)) hn).trans ?_
      simp [complete_eq, State.setUnit]
    · exact exec_dbpeek_ok (s := complete (report n d (s.cnt n) (s.settled n) false s)) d hn
  case poll =>
    have hcounts : (poll d d 0 (poll d d 0 { State.reset with thresh := 3#16 })).cnt 0 ≠
        (poll d d 0 { State.reset with thresh := 3#16 }).cnt 0 := by cases d <;> decide
    refine ⟨{ State.reset with thresh := 3#16 }, _, d, 0, exec_pollCmd d d 0 _, fun hrepeat => ?_⟩
    rw [exec_pollCmd, Host.Outcome.next.injEq] at hrepeat
    exact hcounts (congrArg (State.cnt · 0) hrepeat)

section OtherUnits

variable {s : State} {us : List Debounce} {n : Nat}

/-- Two files that agree on unit n do so once unit n is written. -/
theorem getElem?_set_congr {l l' : List Debounce} (h : l[n]? = l'[n]?) (x : Debounce) :
    (l.set n x)[n]? = (l'.set n x)[n]? := by
  rw [List.getElem?_set_self', List.getElem?_set_self', h]

theorem cnt_of_other_units (hunit : us[n]? = s.units[n]?) : ({ s with units := us } : State).cnt n = s.cnt n := by
  simp only [State.cnt, List.getD_eq_getElem?_getD, hunit]

theorem settled_of_other_units (hunit : us[n]? = s.units[n]?) :
    ({ s with units := us } : State).settled n = s.settled n := by
  simp only [State.settled, List.getD_eq_getElem?_getD, hunit]

/-- POLL with other units in the place of those it does not name. -/
theorem poll_of_other_units (d raw : Bool) (hunit : us[n]? = s.units[n]?) :
    ∃ us', poll d raw n { s with units := us } = { poll d raw n s with units := us' } ∧
      us'[n]? = (poll d raw n s).units[n]? := by
  rcases poll_cases d raw n s with ⟨hn, hpoll⟩ | ⟨hn, ht, hpoll⟩ | ⟨hn, ht, p, hp, hpoll⟩ <;> rw [hpoll]
  · exact ⟨us, poll_badInst hn, hunit⟩
  · exact ⟨us, poll_badThresh hn ht, hunit⟩
  · rw [← cnt_of_other_units hunit, ← settled_of_other_units hunit] at hp
    exact ⟨_, poll_ok (s := { s with units := us }) hn ht hp, getElem?_set_congr hunit _⟩

/-- Every command with other units in the place of those it does not name: the same next state but for those units. -/
theorem exec_of_other_units {i : Instr} {t : State} (hexec : exec i s = .next t)
    (hunits : ∀ n, namedUnit i = some n → us[n]? = s.units[n]?) :
    ∃ us', exec i { s with units := us } = .next { t with units := us' } ∧
      ∀ n, namedUnit i = some n → us'[n]? = t.units[n]? := by
  cases i with
  | nop =>
    cases hexec
    exact ⟨us, rfl, hunits⟩
  | quant w =>
    cases hanswer : quantize s.cfg s.intv w <;>
    · have hanswer' : quantize s.cfg ({ s with units := us } : State).intv w = _ := hanswer
      simp only [exec, execQuant, hanswer, hanswer'] at hexec ⊢
      cases hexec
      exact ⟨us, rfl, hunits⟩
  | dbpos raw n =>
    cases hexec
    obtain ⟨us', hpoll, hunit⟩ := poll_of_other_units true raw (hunits n rfl)
    exact ⟨us', congrArg Host.Outcome.next hpoll, fun m hm => by cases hm; exact hunit⟩
  | dbneg raw n =>
    cases hexec
    obtain ⟨us', hpoll, hunit⟩ := poll_of_other_units false raw (hunits n rfl)
    exact ⟨us', congrArg Host.Outcome.next hpoll, fun m hm => by cases hm; exact hunit⟩
  | dbinit n =>
    by_cases hn : s.cfg.nDb ≤ n
    · cases (exec_badInst rfl hn).symm.trans hexec
      exact ⟨us, exec_badInst rfl hn, hunits⟩
    · cases (exec_dbinit_ok (Nat.lt_of_not_le hn)).symm.trans hexec
      exact ⟨_, exec_dbinit_ok (s := { s with units := us }) (Nat.lt_of_not_le hn),
        fun m hm => by cases hm; exact getElem?_set_congr (hunits n rfl) _⟩
  | dbpeek d n =>
    by_cases hn : s.cfg.nDb ≤ n
    · cases (exec_badInst rfl hn).symm.trans hexec
      exact ⟨us, exec_badInst rfl hn, hunits⟩
    · cases (exec_dbpeek_ok d (Nat.lt_of_not_le hn)).symm.trans hexec
      refine ⟨us, (exec_dbpeek_ok (s := { s with units := us }) d (Nat.lt_of_not_le hn)).trans ?_, hunits⟩
      rw [cnt_of_other_units (hunits n rfl), settled_of_other_units (hunits n rfl)]
      rfl

end OtherUnits

/-- Settles O32: the frame of the command, and the command with other units. -/
theorem unitsAreIndependent : Obligations.UnitsAreIndependent := by
  intro i s t hexec
  obtain ⟨-, -, hframe, -⟩ := exec_writesOnly hexec
  refine ⟨hframe, fun us _ hunits => ?_⟩
  obtain ⟨us', hexec', hunits'⟩ := exec_of_other_units hexec hunits
  exact ⟨_, hexec', rfl, hunits'⟩

end Sys2Proof.Machine
end

section
/-! SUPPORT. The window and the host's programs: bytes, words and wide values, an access outside, a write and what is
read after it, and the accesses of the pseudo-instructions (20_memory.md sections 1, 2 and 7; 30_encoding.md section 5). -/

namespace Sys2Proof.Machine

/-- No event performs an access that is not located in the window (20_memory.md R38; log entry 4). -/
theorem perform_outside {s : State} {a : Nat} (hout : s.cfg.locate a = none) :
    perform (.readByte a) s = .refused .outsideWindow ∧ perform (.readWord a) s = .refused .outsideWindow ∧
    (∀ b, perform (.writeByte a b) s = .refused .outsideWindow) ∧
    (∀ v, perform (.writeWord a v) s = .refused .outsideWindow) := by
  simp [perform, hostReadByte, hostReadWord, hostWriteByte, hostWriteWord, hout]

/-- Settles O39: an address outside the window is not located. -/
theorem accessOutsideWindowIsRefused : Obligations.AccessOutsideWindowIsRefused := by
  intro s a rest hlegal hout
  obtain ⟨hreadByte, hreadWord, hwriteByte, hwriteWord⟩ :=
    perform_outside (s := { s with bus := rest }) (locate_eq_none.2 hout)
  exact ⟨fun hbus => (step_cons hlegal hbus).trans hreadByte, fun hbus => (step_cons hlegal hbus).trans hreadWord,
    fun b hbus => (step_cons hlegal hbus).trans (hwriteByte b),
    fun v hbus => (step_cons hlegal hbus).trans (hwriteWord v)⟩

theorem windowByte_offset_eq_lowByte (s : State) (r : Reg) : s.windowByte r.offset = lowByte (s.getReg r) := by
  rw [windowByte_offset, lowByte_eq]

theorem windowByte_offset_succ_eq_highByte (s : State) (r : Reg) :
    s.windowByte (r.offset + 1) = highByte (s.getReg r) := by
  rw [windowByte_offset_succ, highByte_eq]

/-- A register is its odd byte above its even byte, as a number (20_memory.md R39). -/
theorem toNat_getReg (s : State) (r : Reg) :
    (s.getReg r).toNat = (s.windowByte r.offset).toNat + 256 * (s.windowByte (r.offset + 1)).toNat := by
  have hlt := (s.getReg r).isLt
  rw [windowByte_offset, windowByte_offset_succ, BitVec.toNat_ofNat, BitVec.toNat_ofNat]
  omega

/-- Settles O40: each slot's two bytes, and from them the words of each wide value. -/
theorem windowIsLittleEndian : Obligations.WindowIsLittleEndian := by
  intro s
  refine ⟨fun r => ⟨?_, windowByte_offset_eq_lowByte s r, windowByte_offset_succ_eq_highByte s r⟩, ?intv, ?ach, ?errm⟩
  · rw [windowByte_offset_eq_lowByte, windowByte_offset_succ_eq_highByte, highByte_append_lowByte, State.windowWord,
      ofOffset_offset]
  case intv =>
    have hlo := toNat_getReg s .intvLo
    have hhi := toNat_getReg s .intvHi
    simp only [State.getReg, Reg.offset] at hlo hhi
    simp only [State.intv, words2, hlo, hhi]
    ring
  case ach =>
    have h0 := toNat_getReg s .ach0
    have h1 := toNat_getReg s .ach1
    have h2 := toNat_getReg s .ach2
    simp only [State.getReg, Reg.offset] at h0 h1 h2
    simp only [State.ach, words3, h0, h1, h2]
    ring
  case errm =>
    have h0 := toNat_getReg s .errm0
    have h1 := toNat_getReg s .errm1
    simp only [State.getReg, Reg.offset] at h0 h1
    simp only [State.errm, words2, h0, h1]
    ring

/-- Two steps that answer are a run. -/
theorem run_two {s s' t : State} (h : step s = .next s') (h' : step s' = .next t) :
    Host.Core.run Sys2Proof.core 2 s = .next t := by
  rw [run_succ_of_step h, run_succ_of_step h']
  rfl

/-- A word write to a register that the host can write puts the word there and takes the event (20_memory.md R42). -/
theorem step_writeWord_stores {s : State} {r : Reg} {v : Word} {rest : List HostEvent} (hlegal : s.cfg.legal = true)
    (hr : r.access ≠ .ro) (hbus : s.bus = .writeWord (s.cfg.base + r.offset) v :: rest) :
    ∃ t, step s = .next t ∧ t.getReg r = v ∧ t.bus = rest ∧ t.cfg = s.cfg := by
  cases haccess : r.access with
  | rw =>
    refine ⟨_, step_writeWord_rw hlegal hbus haccess, getReg_setReg_same _ v ?_ ?_, setReg_bus _ r v,
      setReg_cfg _ r v⟩ <;>
    · rintro rfl
      cases haccess
  | ro => exact absurd haccess hr
  | cmd =>
    cases access_eq_cmd.1 haccess
    obtain ⟨t, hissue, hcmd, hrest, hcfg⟩ := issue_total v { s with bus := rest }
    exact ⟨t, (step_cmdWrite hlegal hbus).trans hissue, hcmd, hrest, hcfg⟩

/-- Settles O41: the write puts the word in the register, and the read returns the register. -/
theorem readAfterWriteReturnsTheWord : Obligations.ReadAfterWriteReturnsTheWord := by
  intro s r v rest hlegal hr hbus
  have hwritable : r.access ≠ .ro := by
    rcases hr with rfl | rfl | rfl | rfl <;> decide
  obtain ⟨s', hwrite, hreg, hrest, hcfg⟩ := step_writeWord_stores hlegal hwritable hbus
  have hread := (wordReadReturnsTheRegister s' r rest (by rwa [hcfg]) (by rw [hrest, hcfg])).1
  refine ⟨_, run_two hwrite hread, rfl, by rw [hreg], ?_⟩
  rw [← hreg]
  cases r <;> rfl

/-- The two halves of a 32-bit value, put together again. -/
theorem words2_extractLsb' (x : BitVec 32) : words2 (x.extractLsb' 16 16) (x.extractLsb' 0 16) = x.toNat := by
  have hlt := x.isLt
  simp only [words2, BitVec.extractLsb'_toNat, Nat.shiftRight_eq_div_pow]
  omega

/-- Settles O42: the first write stores INTV_LO and the second INTV_HI. -/
theorem longWriteSetsTheInterval : Obligations.LongWriteSetsTheInterval := by
  intro s x rest hlegal hbus
  have hlo := step_writeWord_rw (r := .intvLo) hlegal hbus rfl
  exact ⟨_, run_two hlo (step_writeWord_rw (r := .intvHi) hlegal rfl rfl), words2_extractLsb' x, rfl⟩

/-- The assembler issues a well-formed command as one write of its word to CMD (30_encoding.md R61). -/
theorem issueEvents_of_wellFormed {i : Instr} (hwf : wellFormed i = true) (c : Config) :
    issueEvents c i = some [cmdWrite c (encode i)] :=
  if_pos hwf

/-- Settles O44: the pseudo-instructions that issue a command put their argument writes before its write, and the two
that read issue none. -/
theorem pseudoInstructionExpansions : Obligations.PseudoInstructionExpansions := by
  intro c n r t x hn
  have hquant (w : Width) := issueEvents_of_wellFormed (i := .quant w) rfl c
  have hdbpos := issueEvents_of_wellFormed (i := .dbpos r n) (decide_eq_true hn) c
  have hdbneg := issueEvents_of_wellFormed (i := .dbneg r n) (decide_eq_true hn) c
  refine ⟨?_, ?_, ?_, ?_, rfl, rfl⟩
  · rw [HostStmt.events, hquant]; rfl
  · rw [HostStmt.events, hquant]; rfl
  · rw [HostStmt.events, hdbpos]; rfl
  · rw [HostStmt.events, hdbneg]; rfl

end Sys2Proof.Machine
end

section
/-! SUPPORT. The legal ranges of the parameters, as an equivalence (00_scope.md R6, R7). -/

namespace Sys2Proof

theorem strictlyIncreasing_iff_pairwise {l : List Nat} : strictlyIncreasing l = true ↔ l.Pairwise (· < ·) := by
  refine ⟨pairwise_of_strictlyIncreasing, fun h => ?_⟩
  induction h with
  | nil => rfl
  | @cons a l hhead _ ih =>
    cases l with
    | nil => rfl
    | cons b rest => simp [strictlyIncreasing, ih, hhead b (by simp)]

namespace Machine

/-- A condition on every tick, by index (00_scope.md R6). -/
theorem forall_mem_tick_iff (c : Config) (p : Nat → Prop) : (∀ t ∈ c.tick, p t) ↔ ∀ k, k < c.nclk → p (tickOf c k) := by
  rw [List.forall_mem_iff_getElem]
  exact forall₂_congr fun k hk => by rw [tickOf, List.getD_eq_getElem _ _ hk]

/-- The order of the table, by index (00_scope.md R7). -/
theorem tick_pairwise_iff (c : Config) :
    c.tick.Pairwise (· < ·) ↔ ∀ j k, j < k → k < c.nclk → tickOf c j < tickOf c k := by
  rw [List.pairwise_iff_getElem]
  constructor
  · intro h j k hjk hk
    have hj : j < c.tick.length := hjk.trans hk
    rw [tickOf, tickOf, List.getD_eq_getElem _ _ hj, List.getD_eq_getElem _ _ hk]
    exact h j k hj hk hjk
  · intro h j k hj hk hjk
    have hlt := h j k hjk hk
    rwa [tickOf, tickOf, List.getD_eq_getElem _ _ hj, List.getD_eq_getElem _ _ hk] at hlt

/-- Settles O45: the check of each parameter, the two on the table by index. -/
theorem illegalConfigurationIsRejected : Obligations.IllegalConfigurationIsRejected := by
  refine ⟨fun c => ?_, fun s hillegal => by simp [step, hillegal]⟩
  rw [← forall_mem_tick_iff c (fun t => 1 ≤ t ∧ t ≤ 2 ^ 32 - 1), ← tick_pairwise_iff,
    ← strictlyIncreasing_iff_pairwise]
  simp only [Config.legal, Bool.and_eq_true, decide_eq_true_eq, List.all_eq_true]
  tauto

end Machine

end Sys2Proof
end
